-- ==== Sys2Proof/Word.lean ====
section
/-! DEFINITION. The word types of the machine: what the spec treats as bits (00_scope.md R12, R13). -/

namespace Sys2Proof

/-- A byte: a general register, a timer, a memory cell, the immediate NN. -/
abbrev Byte := BitVec 8

/-- A 16-bit word: an instruction, `pc`, `I`, a stack entry. -/
abbrev Word := BitVec 16

/-- A nibble: a register number X or Y, the immediate N, the family F. -/
abbrev Nibble := BitVec 4

/-- The 12-bit immediate NNN. -/
abbrev Addr12 := BitVec 12

end Sys2Proof
end

