-- ==== Sys2Proof/Syntax.lean ====
section
/-! DEFINITION. The 34 instructions of 30_encoding.md R84, one constructor per row of spec/opcode_table.json, in the
table's order. Operands are the fields of R81 in the width the encoding gives them; every value of a field is legal
(R82). -/

namespace Sys2Proof

inductive Instr where
  /-- 00E0, CLS: R191. -/
  | cls
  /-- 00EE, RET: R121. -/
  | ret
  /-- 1NNN, JP NNN: R122. -/
  | jp (nnn : Addr12)
  /-- 2NNN, CALL NNN: R123. -/
  | call (nnn : Addr12)
  /-- 3XNN, SE VX, NN: R124. -/
  | seImm (x : Nibble) (nn : Byte)
  /-- 4XNN, SNE VX, NN: R125. -/
  | sneImm (x : Nibble) (nn : Byte)
  /-- 5XY0, SE VX, VY: R126. -/
  | seReg (x y : Nibble)
  /-- 6XNN, LD VX, NN: R142. -/
  | ldImm (x : Nibble) (nn : Byte)
  /-- 7XNN, ADD VX, NN: R143. -/
  | addImm (x : Nibble) (nn : Byte)
  /-- 8XY0, LD VX, VY: R150. -/
  | ldReg (x y : Nibble)
  /-- 8XY1, OR VX, VY: R151. -/
  | orReg (x y : Nibble)
  /-- 8XY2, AND VX, VY: R152. -/
  | andReg (x y : Nibble)
  /-- 8XY3, XOR VX, VY: R153. -/
  | xorReg (x y : Nibble)
  /-- 8XY4, ADD VX, VY: R154. -/
  | addReg (x y : Nibble)
  /-- 8XY5, SUB VX, VY: R155. -/
  | subReg (x y : Nibble)
  /-- 8XY6, SHR VX, VY: R158. -/
  | shr (x y : Nibble)
  /-- 8XY7, SUBN VX, VY: R156. -/
  | subn (x y : Nibble)
  /-- 8XYE, SHL VX, VY: R159. -/
  | shl (x y : Nibble)
  /-- 9XY0, SNE VX, VY: R127. -/
  | sneReg (x y : Nibble)
  /-- ANNN, LD I, NNN: R170. -/
  | ldI (nnn : Addr12)
  /-- BNNN, JP V0, NNN: R129. Under `jump_offset_uses_vx` the register added is the one NNN[11:8] names. -/
  | jpV0 (nnn : Addr12)
  /-- CXNN, RND VX, NN: R162. -/
  | rnd (x : Nibble) (nn : Byte)
  /-- DXYN, DRW VX, VY, N: R192. -/
  | drw (x y n : Nibble)
  /-- EX9E, SKP VX: R213. -/
  | skp (x : Nibble)
  /-- EXA1, SKNP VX: R214. -/
  | sknp (x : Nibble)
  /-- FX07, LD VX, DT: R210. -/
  | ldVxDt (x : Nibble)
  /-- FX0A, LD VX, K: R217. -/
  | ldVxK (x : Nibble)
  /-- FX15, LD DT, VX: R211. -/
  | ldDtVx (x : Nibble)
  /-- FX18, LD ST, VX: R212. -/
  | ldStVx (x : Nibble)
  /-- FX1E, ADD I, VX: R171. -/
  | addIVx (x : Nibble)
  /-- FX29, LD F, VX: R172. -/
  | ldFVx (x : Nibble)
  /-- FX33, LD B, VX: R173. -/
  | ldBVx (x : Nibble)
  /-- FX55, LD [I], VX: R177. -/
  | ldMemVx (x : Nibble)
  /-- FX65, LD VX, [I]: R178. -/
  | ldVxMem (x : Nibble)
  deriving DecidableEq, Repr

end Sys2Proof
end

