-- ==== Sys2Proof/WellFormed.lean ====
section
/-! DEFINITION. What the caller must give the block for it to be meaningful.

An instruction's operands are its encoding's fields, and 30_encoding.md R82 makes every value of every field legal (X and Y
name the 16 registers, NN is any byte, NNN any 12-bit address, N any nibble). The types of Sys2Proof/Syntax.lean hold
exactly those values, so no term of `Instr` is ill-formed and the check answers true (log entry 11). The check that can
refuse is the one of a program image, the caller's contract of 70_reset_and_hazards.md R264. -/

namespace Sys2Proof

/-- R82, R91: every instruction term stands for a legal word. -/
def Instr.wellFormed (_ : Instr) : Bool := true

/-- R264: a program image is at most 3584 bytes (0x1000 − 0x200). `load` rejects any other whole. -/
def imageWellFormed (bytes : List Byte) : Bool := decide (bytes.length ≤ 3584)

end Sys2Proof
end

