-- ==== Sys2Proof/Decode.lean ====
section
/-! DEFINITION. Decoding and encoding (30_encoding.md R80 to R95). The decoder reads only the word (R95) and follows the
dispatch of R84 to R89; the encoder is written from the patterns of R84. -/

namespace Sys2Proof

/-! ## Fields (R81) -/

/-- `F = w[15:12]`. -/
def fieldF (w : Word) : Nibble := w.extractLsb' 12 4

/-- `X = w[11:8]`. -/
def fieldX (w : Word) : Nibble := w.extractLsb' 8 4

/-- `Y = w[7:4]`. -/
def fieldY (w : Word) : Nibble := w.extractLsb' 4 4

/-- `N = w[3:0]`. -/
def fieldN (w : Word) : Nibble := w.extractLsb' 0 4

/-- `NN = w[7:0]`. -/
def fieldNN (w : Word) : Byte := w.extractLsb' 0 8

/-- `NNN = w[11:0]`. -/
def fieldNNN (w : Word) : Addr12 := w.extractLsb' 0 12

/-! ## Bytes of a word (20_memory.md R57) -/

/-- `{hi, lo}` = hi * 256 + lo (00_scope.md R13): the word whose first byte in memory is `hi`. -/
def wordOfBytes (hi lo : Byte) : Word := BitVec.ofNat 16 (hi.toNat * 256 + lo.toNat)

/-- The byte at the lower address: bits 15..8. -/
def highByte (w : Word) : Byte := w.extractLsb' 8 8

/-- The byte at the higher address: bits 7..0. -/
def lowByte (w : Word) : Byte := w.extractLsb' 0 8

/-! ## Decoding -/

/-- Why no instruction was decoded. -/
inductive DecodeError where
  /-- The word is one of the illegal words of R90. -/
  | illegalOpcode (w : Word)
  /-- Fewer than the two bytes of an instruction (R80) were given. -/
  | truncated
  deriving DecidableEq, Repr

/-- R85: family 0 decodes by the whole word. -/
def decodeFamily0 (w : Word) : Except DecodeError Instr :=
  match fieldNNN w with
  | 0x0E0#12 => .ok .cls
  | 0x0EE#12 => .ok .ret
  | _ => .error (.illegalOpcode w)

/-- R89: 5XY0 only. -/
def decodeFamily5 (w : Word) : Except DecodeError Instr :=
  match fieldN w with
  | 0x0#4 => .ok (.seReg (fieldX w) (fieldY w))
  | _ => .error (.illegalOpcode w)

/-- R86: family 8 decodes by N. -/
def decodeFamily8 (w : Word) : Except DecodeError Instr :=
  match fieldN w with
  | 0x0#4 => .ok (.ldReg (fieldX w) (fieldY w))
  | 0x1#4 => .ok (.orReg (fieldX w) (fieldY w))
  | 0x2#4 => .ok (.andReg (fieldX w) (fieldY w))
  | 0x3#4 => .ok (.xorReg (fieldX w) (fieldY w))
  | 0x4#4 => .ok (.addReg (fieldX w) (fieldY w))
  | 0x5#4 => .ok (.subReg (fieldX w) (fieldY w))
  | 0x6#4 => .ok (.shr (fieldX w) (fieldY w))
  | 0x7#4 => .ok (.subn (fieldX w) (fieldY w))
  | 0xE#4 => .ok (.shl (fieldX w) (fieldY w))
  | _ => .error (.illegalOpcode w)

/-- R89: 9XY0 only. -/
def decodeFamily9 (w : Word) : Except DecodeError Instr :=
  match fieldN w with
  | 0x0#4 => .ok (.sneReg (fieldX w) (fieldY w))
  | _ => .error (.illegalOpcode w)

/-- R87: family E decodes by NN. -/
def decodeFamilyE (w : Word) : Except DecodeError Instr :=
  match fieldNN w with
  | 0x9E#8 => .ok (.skp (fieldX w))
  | 0xA1#8 => .ok (.sknp (fieldX w))
  | _ => .error (.illegalOpcode w)

/-- R88: family F decodes by NN. -/
def decodeFamilyF (w : Word) : Except DecodeError Instr :=
  match fieldNN w with
  | 0x07#8 => .ok (.ldVxDt (fieldX w))
  | 0x0A#8 => .ok (.ldVxK (fieldX w))
  | 0x15#8 => .ok (.ldDtVx (fieldX w))
  | 0x18#8 => .ok (.ldStVx (fieldX w))
  | 0x1E#8 => .ok (.addIVx (fieldX w))
  | 0x29#8 => .ok (.ldFVx (fieldX w))
  | 0x33#8 => .ok (.ldBVx (fieldX w))
  | 0x55#8 => .ok (.ldMemVx (fieldX w))
  | 0x65#8 => .ok (.ldVxMem (fieldX w))
  | _ => .error (.illegalOpcode w)

/-- R84: decode dispatches on F. Total on all 65536 words (R95); a word of R90 is refused by name. -/
def decode (w : Word) : Except DecodeError Instr :=
  match fieldF w with
  | 0x0#4 => decodeFamily0 w
  | 0x1#4 => .ok (.jp (fieldNNN w))
  | 0x2#4 => .ok (.call (fieldNNN w))
  | 0x3#4 => .ok (.seImm (fieldX w) (fieldNN w))
  | 0x4#4 => .ok (.sneImm (fieldX w) (fieldNN w))
  | 0x5#4 => decodeFamily5 w
  | 0x6#4 => .ok (.ldImm (fieldX w) (fieldNN w))
  | 0x7#4 => .ok (.addImm (fieldX w) (fieldNN w))
  | 0x8#4 => decodeFamily8 w
  | 0x9#4 => decodeFamily9 w
  | 0xA#4 => .ok (.ldI (fieldNNN w))
  | 0xB#4 => .ok (.jpV0 (fieldNNN w))
  | 0xC#4 => .ok (.rnd (fieldX w) (fieldNN w))
  | 0xD#4 => .ok (.drw (fieldX w) (fieldY w) (fieldN w))
  | 0xE#4 => decodeFamilyE w
  | _ => decodeFamilyF w

/-- R80, R92: an instruction is the next two bytes, big-endian; the rest of the bytes is returned. -/
def decodeBytes : List Byte → Except DecodeError (Instr × List Byte)
  | hi :: lo :: rest => (decode (wordOfBytes hi lo)).map fun i => (i, rest)
  | _ => .error .truncated

/-! ## Encoding -/

/-- A word of the form FXYN: F in bits 15..12, X in 11..8, Y in 7..4, N in 3..0 (R81). -/
def wordFXYN (f x y n : Nibble) : Word :=
  BitVec.ofNat 16 (f.toNat * 2 ^ 12 + x.toNat * 2 ^ 8 + y.toNat * 2 ^ 4 + n.toNat)

/-- A word of the form FXNN: F in bits 15..12, X in 11..8, NN in 7..0 (R81). -/
def wordFXNN (f x : Nibble) (nn : Byte) : Word :=
  BitVec.ofNat 16 (f.toNat * 2 ^ 12 + x.toNat * 2 ^ 8 + nn.toNat)

/-- A word of the form FNNN: F in bits 15..12, NNN in 11..0 (R81). -/
def wordFNNN (f : Nibble) (nnn : Addr12) : Word :=
  BitVec.ofNat 16 (f.toNat * 2 ^ 12 + nnn.toNat)

/-- The word of an instruction: the pattern column of R84 with the fields filled in (R93). -/
def encode : Instr → Word
  | .cls => 0x00E0#16
  | .ret => 0x00EE#16
  | .jp nnn => wordFNNN 0x1#4 nnn
  | .call nnn => wordFNNN 0x2#4 nnn
  | .seImm x nn => wordFXNN 0x3#4 x nn
  | .sneImm x nn => wordFXNN 0x4#4 x nn
  | .seReg x y => wordFXYN 0x5#4 x y 0x0#4
  | .ldImm x nn => wordFXNN 0x6#4 x nn
  | .addImm x nn => wordFXNN 0x7#4 x nn
  | .ldReg x y => wordFXYN 0x8#4 x y 0x0#4
  | .orReg x y => wordFXYN 0x8#4 x y 0x1#4
  | .andReg x y => wordFXYN 0x8#4 x y 0x2#4
  | .xorReg x y => wordFXYN 0x8#4 x y 0x3#4
  | .addReg x y => wordFXYN 0x8#4 x y 0x4#4
  | .subReg x y => wordFXYN 0x8#4 x y 0x5#4
  | .shr x y => wordFXYN 0x8#4 x y 0x6#4
  | .subn x y => wordFXYN 0x8#4 x y 0x7#4
  | .shl x y => wordFXYN 0x8#4 x y 0xE#4
  | .sneReg x y => wordFXYN 0x9#4 x y 0x0#4
  | .ldI nnn => wordFNNN 0xA#4 nnn
  | .jpV0 nnn => wordFNNN 0xB#4 nnn
  | .rnd x nn => wordFXNN 0xC#4 x nn
  | .drw x y n => wordFXYN 0xD#4 x y n
  | .skp x => wordFXNN 0xE#4 x 0x9E#8
  | .sknp x => wordFXNN 0xE#4 x 0xA1#8
  | .ldVxDt x => wordFXNN 0xF#4 x 0x07#8
  | .ldVxK x => wordFXNN 0xF#4 x 0x0A#8
  | .ldDtVx x => wordFXNN 0xF#4 x 0x15#8
  | .ldStVx x => wordFXNN 0xF#4 x 0x18#8
  | .addIVx x => wordFXNN 0xF#4 x 0x1E#8
  | .ldFVx x => wordFXNN 0xF#4 x 0x29#8
  | .ldBVx x => wordFXNN 0xF#4 x 0x33#8
  | .ldMemVx x => wordFXNN 0xF#4 x 0x55#8
  | .ldVxMem x => wordFXNN 0xF#4 x 0x65#8

/-- The two bytes of an instruction as they stand in memory, lower address first (20_memory.md R57). -/
def encodeBytes (i : Instr) : List Byte := [highByte (encode i), lowByte (encode i)]

/-! ## The opcode table's numbering -/

/-- The instruction word whose bits are `w` in the numbering of spec/opcode_table.json, of `nbits` bits; the bits above
`nbits` are 0. -/
def tableWord (nbits w : Nat) : Word := BitVec.ofNat 16 (w % 2 ^ nbits)

/-- The instruction the decoder reads from the word `w` of the opcode table, laid out in memory as R57 says. -/
def decodeTableWord (nbits w : Nat) : Option Instr :=
  match decodeBytes [highByte (tableWord nbits w), lowByte (tableWord nbits w)] with
  | .ok (i, _) => some i
  | .error _ => none

end Sys2Proof
end

