-- ==== Sys2Proof/Config.lean ====
section
/-! DEFINITION. What is fixed when the block is constructed (00_scope.md R10, R11), and the one value the spec leaves
free (42_register_alu.md R162). -/

namespace Sys2Proof

/-- The configuration `cfg` of R10, with the parameter `FONT` of R11. It is fixed at construction and never changes.
Each flag is named by the behaviour it selects when true (90_conflicts.md C3). The spec gives no flag a default. -/
structure Config where
  /-- 8XY6 and 8XYE shift VY (true) or VX (false): R158, R159. -/
  shiftUsesVy : Bool
  /-- BNNN adds VX (true) or V0 (false): R129. -/
  jumpOffsetUsesVx : Bool
  /-- FX55 and FX65 leave I + X + 1 in I (true) or leave I alone (false): R177, R178. -/
  loadStoreIncrementsI : Bool
  /-- The rate at which the caller invokes `step`. No rule reads it: R290. -/
  instrClockHz : Nat
  /-- `FONT`: the 80 bytes memory holds at 0x050 to 0x09F after construction: R11, R56. -/
  font : Vector Byte 80
  deriving DecidableEq, Repr

/-- `random_byte()` of R162: the byte of draw number `n`. A FREE VALUE (log entry 3): it has no body, so nothing can be
proved about which byte a draw gives. -/
opaque Config.randomByte : Nat → Byte

end Sys2Proof
end

