-- ==== Sys2Proof/Machine/Params.lean ====
section
/-! DEFINITION. The fixed sizes and addresses of 00_scope.md R9, the default font of 20_memory.md R56, and the configuration
`State.reset` is constructed with. -/

namespace Sys2Proof.Machine

/-- `MEM_SIZE`: addresses 0x000 to 0xFFF (R9, R50). -/
def memSize : Nat := 0x1000

/-- `FONT_BASE` (R9). -/
def fontBase : Nat := 0x050

/-- The size of `FONT`: 16 glyphs of `GLYPH_BYTES` = 5 bytes (R9). -/
def fontSize : Nat := 80

/-- `GLYPH_BYTES` (R9, R172). -/
def glyphBytes : Nat := 5

/-- `PROG_BASE`: where `load` copies a program, and the reset value of `pc` (R9, R38). -/
def progBase : Nat := 0x200

/-- `FETCH_LIMIT`: a fetch at `pc` ≥ 0xFFE faults (R9, R101, 90_conflicts.md C7). -/
def fetchLimit : Nat := 0xFFE

/-- Glyphs 0 to 7 of the default font (R56). -/
def conventionalGlyphs0to7 : List Byte :=
  [0xF0, 0x90, 0x90, 0x90, 0xF0] ++ [0x20, 0x60, 0x20, 0x20, 0x70] ++
  [0xF0, 0x10, 0xF0, 0x80, 0xF0] ++ [0xF0, 0x10, 0xF0, 0x10, 0xF0] ++
  [0x90, 0x90, 0xF0, 0x10, 0x10] ++ [0xF0, 0x80, 0xF0, 0x10, 0xF0] ++
  [0xF0, 0x80, 0xF0, 0x90, 0xF0] ++ [0xF0, 0x10, 0x20, 0x40, 0x40]

/-- Glyphs 8 to F of the default font (R56). -/
def conventionalGlyphs8toF : List Byte :=
  [0xF0, 0x90, 0xF0, 0x90, 0xF0] ++ [0xF0, 0x90, 0xF0, 0x10, 0xF0] ++
  [0xF0, 0x90, 0xF0, 0x90, 0x90] ++ [0xE0, 0x90, 0xE0, 0x90, 0xE0] ++
  [0xF0, 0x80, 0x80, 0x80, 0xF0] ++ [0xE0, 0x90, 0x90, 0x90, 0xE0] ++
  [0xF0, 0x80, 0xF0, 0x80, 0xF0] ++ [0xF0, 0x80, 0xF0, 0x80, 0x80]

/-- The default `FONT` of R56. PRESUMED (log entry 1): R56 marks the bytes as general knowledge. -/
def conventionalFont : Vector Byte 80 :=
  ⟨⟨conventionalGlyphs0to7 ++ conventionalGlyphs8toF⟩, rfl⟩

/-- The configuration of `State.reset`. DESIGN CHOICE (log entry 2): the spec gives the flags no default (R10). The values
are the convention of 95_test_vectors.md (every flag false, the default font) and the rate R10 quotes. -/
def resetConfig : Config where
  shiftUsesVy := false
  jumpOffsetUsesVx := false
  loadStoreIncrementsI := false
  instrClockHz := 700
  font := conventionalFont

end Sys2Proof.Machine
end

