-- ==== Sys2Proof/Machine/Memory.lean ====
section
/-! DEFINITION. The 4096 bytes of memory (20_memory.md R50 to R61) as a list of address and byte in one canonical form:
addresses strictly rising, and no entry equal to what an unlisted address reads as. -/

namespace Sys2Proof.Machine

/-- The bytes that differ from the reset contents, by rising address. -/
abbrev Memory := List Host.Cell

/-- What an address that is not listed reads as: the reset contents of R52, the font at 0x050 to 0x09F and 0 elsewhere. -/
def resetByte (font : Vector Byte 80) (a : Nat) : Byte :=
  if h : fontBase ≤ a ∧ a < fontBase + 80 then font[a - fontBase]'(by omega) else 0

/-- The listed byte of an address, if there is one. -/
def Memory.lookup : Memory → Nat → Option Byte
  | [], _ => none
  | (b, w) :: rest, a => if b = a then some w else Memory.lookup rest a

/-- List a byte at an address, in the place the order gives it. -/
def Memory.put : Memory → Nat → Byte → Memory
  | [], a, x => [(a, x)]
  | (b, w) :: rest, a, x =>
    if a < b then (a, x) :: (b, w) :: rest
    else if a = b then (a, x) :: rest
    else (b, w) :: Memory.put rest a x

/-- Take an address off the list. -/
def Memory.erase : Memory → Nat → Memory
  | [], _ => []
  | (b, w) :: rest, a => if b = a then Memory.erase rest a else (b, w) :: Memory.erase rest a

/-- `MemRead(a, 1)` (00_scope.md R14). The bounds are the caller's check: `checkRange` or the fetch bound (R62). -/
def Memory.read (font : Vector Byte 80) (m : Memory) (a : Nat) : Byte :=
  (m.lookup a).getD (resetByte font a)

/-- `MemWrite(a, 1, x)` (00_scope.md R14). The bounds are the caller's check (R62, R63). -/
def Memory.write (font : Vector Byte 80) (m : Memory) (a : Nat) (x : Byte) : Memory :=
  if x = resetByte font a then m.erase a else m.put a x

/-- Write consecutive bytes from an address up, in ascending order. -/
def Memory.writeBytes (font : Vector Byte 80) : Memory → Nat → List Byte → Memory
  | m, _, [] => m
  | m, a, x :: rest => Memory.writeBytes font (m.write font a x) (a + 1) rest

/-- Read `n` consecutive bytes from an address up, in ascending order. -/
def Memory.readBytes (font : Vector Byte 80) (m : Memory) : Nat → Nat → List Byte
  | _, 0 => []
  | a, n + 1 => m.read font a :: Memory.readBytes font m (a + 1) n

/-- The canonical form: strictly rising addresses, all below 0x1000, and no entry that reads as an unlisted address does. -/
abbrev Memory.wf (font : Vector Byte 80) (m : Memory) : Prop :=
  m.Pairwise (fun c d => c.1 < d.1) ∧ ∀ c ∈ m, c.1 < memSize ∧ c.2 ≠ resetByte font c.1

end Sys2Proof.Machine
end

