-- ==== Sys2Proof/Machine/State.lean ====
section
/-! DEFINITION. The state of the block: the tuple of 10_state.md with the configuration beside it, the causes of a fault, and
the state after `construct` (R38, R260). -/

namespace Sys2Proof.Machine

/-- The fatal machine faults of 60_exceptions.md R231, by cause. An operation that raises one answers it as an error;
the step that raised it takes it (R233): its outcome is a NEXT state with status `faulted`, so that no step of this model
ends in `Outcome.fault` (log entry 5). Safe: each is a stop the spec itself gives, and nothing beyond status changes. -/
inductive Fault where
  /-- Code 1. Raised by the fetch of a running step when `pc` ≥ 0xFFE (R101). Safe. -/
  | pcOutOfBounds
  /-- Code 2. Raised by decode on a word of 30_encoding.md R90. Safe. -/
  | illegalOpcode
  /-- Code 3. Raised by 2NNN when `sp` = 16 (10_state.md R25). Safe. -/
  | stackOverflow
  /-- Code 4. Raised by 00EE when `sp` = 0 (10_state.md R25). Safe. -/
  | stackUnderflow
  /-- Code 5. Raised by DXYN, FX33, FX55 and FX65 when an address they touch is above 0xFFF (20_memory.md R63). Safe. -/
  | indexOutOfBounds
  /-- Code 6. Raised by EX9E and EXA1 when VX > 15 (45_timers_keys.md R220). Safe. -/
  | keyIndexOutOfRange
  deriving DecidableEq, Repr

/-- Why an instruction has no meaning. No arm of exec answers one: all 34 instructions are modelled. -/
inductive Refusal where
  /-- An instruction of the table without a meaning yet, by its mnemonic. Raised by exec's arms only. Safe. -/
  | notModelled (mnemonic : String)
  deriving DecidableEq, Repr

/-- The fault record of 10_state.md R34. Its `code` is a function of its cause (`FaultRecord.code`, log entry 6). -/
structure FaultRecord where
  cause : Fault
  /-- `pc` when the faulting step began: the faulting instruction's address. -/
  pc : Word
  /-- The word fetched, or none when the fetch itself faulted. -/
  word : Option Word
  deriving DecidableEq, Repr

/-- The machine status of 10_state.md R33. -/
inductive Status where
  /-- The next step fetches an instruction. -/
  | running
  /-- An FX0A with X = x has started; the latch is the key a press delivered. -/
  | awaitingKey (x : Nibble) (latch : Option (Fin 16))
  /-- A fatal machine fault ended the run. -/
  | faulted (record : FaultRecord)
  deriving DecidableEq, Repr

/-- The 64 × 32 grid of 10_state.md R30, as 32 rows (top first) of 64 pixels (left first). -/
abbrev Display := Vector (Vector Bool 64) 32

/-- The 16 key states of 10_state.md R31; true means pressed. -/
abbrev Keys := Vector Bool 16

structure State where
  /-- The configuration, constant from construction on (R32). -/
  cfg : Config
  /-- The 4096 bytes of memory (R29). -/
  mem : Memory
  /-- V0 to VF (R20); entry 15 is VF (R21). -/
  v : Vector Byte 16
  /-- The index register `I` (R26). -/
  idx : Word
  /-- The program counter (R22). -/
  pc : Word
  /-- How many stack entries are in use, 0 to 16 (R24). -/
  sp : Fin 17
  /-- The 16 stack entries (R24). -/
  stack : Vector Word 16
  /-- The delay timer `DT` (R27). -/
  dt : Byte
  /-- The sound timer `ST` (R28). -/
  st : Byte
  /-- The display (R30). -/
  disp : Display
  /-- The key state (R31). -/
  key : Keys
  /-- The machine status, with the wait latch and the fault record (R33, R34). -/
  status : Status
  /-- The MODEL's own: the redraw bit the last successful step returned (R104; log entry 4). -/
  redraw : Bool
  /-- The MODEL's own: how many random bytes have been drawn (R162; log entry 3). -/
  draws : Nat
  deriving DecidableEq, Repr

/-- `construct(cfg)` (70_reset_and_hazards.md R260): every element at its reset value of 10_state.md R38. Memory lists
nothing: it reads as the reset contents, `FONT` at 0x050 and 0 elsewhere. -/
def State.construct (cfg : Config) : State where
  cfg := cfg
  mem := []
  v := Vector.replicate 16 0
  idx := 0
  pc := BitVec.ofNat 16 progBase
  sp := 0
  stack := Vector.replicate 16 0
  dt := 0
  st := 0
  disp := Vector.replicate 32 (Vector.replicate 64 false)
  key := Vector.replicate 16 false
  status := .running
  redraw := false
  draws := 0

/-- The machine right after reset, constructed with the configuration of log entry 2. -/
def State.reset : State := State.construct resetConfig

end Sys2Proof.Machine
end

