-- ==== Sys2Proof/Machine/Ops.lean ====
section
/-! DEFINITION. The operations the instructions share: register, stack and memory access, fetch, taking a fault, and the
steps of the two waiting statuses. An operation that can raise a fault answers `Except Fault`; `attempt` is the handler of
40_step_cycle.md R100. -/

namespace Sys2Proof.Machine

/-- What a meaning and a step answer. -/
abbrev StepOutcome := Host.Outcome State Fault Refusal

/-! ## Writing one field -/

def State.setPc (s : State) (w : Word) : State := { s with pc := w }
def State.setIdx (s : State) (w : Word) : State := { s with idx := w }
def State.setDt (s : State) (b : Byte) : State := { s with dt := b }
def State.setSt (s : State) (b : Byte) : State := { s with st := b }
def State.setDisp (s : State) (d : Display) : State := { s with disp := d }
def State.setKey (s : State) (k : Keys) : State := { s with key := k }
def State.setStatus (s : State) (x : Status) : State := { s with status := x }
def State.setMem (s : State) (m : Memory) : State := { s with mem := m }
def State.setRegs (s : State) (v : Vector Byte 16) : State := { s with v := v }
def State.setStack (s : State) (n : Fin 17) (k : Vector Word 16) : State := { s with sp := n, stack := k }
def State.setRedraw (s : State) (b : Bool) : State := { s with redraw := b }
def State.setDraws (s : State) (n : Nat) : State := { s with draws := n }

/-! ## General registers -/

/-- The number of VF (10_state.md R21). -/
def flagReg : Nibble := 0xF#4

/-- `V[x]` (10_state.md R20): none is hardwired, banked or aliased. -/
def State.readV (s : State) (x : Nibble) : Byte := s.v[x.toNat]'x.isLt

/-- `V[x] <- b`. -/
def State.writeV (s : State) (x : Nibble) (b : Byte) : State := s.setRegs (s.v.set x.toNat b x.isLt)

/-- `V[15] <- 1` or `0`: the flag, which an instruction writes last (42_register_alu.md R141). -/
def State.writeFlag (s : State) (f : Bool) : State := s.writeV flagReg (if f then 1 else 0)

/-! ## Memory -/

/-- `MemRead(a, 1)`. -/
def State.readMem (s : State) (a : Nat) : Byte := s.mem.read s.cfg.font a

/-- Read `n` consecutive bytes from `a` up. -/
def State.readBytes (s : State) (a n : Nat) : List Byte := s.mem.readBytes s.cfg.font a n

/-- Write consecutive bytes from `a` up. -/
def State.writeBytes (s : State) (a : Nat) (bytes : List Byte) : State :=
  s.setMem (s.mem.writeBytes s.cfg.font a bytes)

/-- `CheckRange(a, n)` (20_memory.md R63): `n` = 0 never faults. -/
def checkRange (a n : Nat) : Except Fault Unit :=
  if 0 < n ∧ a + n - 1 > 0xFFF then .error .indexOutOfBounds else .ok ()

/-! ## The call stack (10_state.md R25) -/

/-- `Push(w)`. -/
def State.push (s : State) (w : Word) : Except Fault State :=
  if h : s.sp.val < 16 then
    .ok (s.setStack ⟨s.sp.val + 1, by omega⟩ (s.stack.set s.sp.val w h))
  else .error .stackOverflow

/-- `Pop()`: the popped value, and the state in which the entry keeps its value. -/
def State.pop (s : State) : Except Fault (Word × State) :=
  if h : s.sp.val = 0 then .error .stackUnderflow
  else .ok (s.stack[s.sp.val - 1]'(by omega), s.setStack ⟨s.sp.val - 1, by omega⟩ s.stack)

/-! ## Keys -/

/-- `CheckKey(k)` and `key[k]` (45_timers_keys.md R220): a key number above 15 faults. -/
def State.keyAt (s : State) (k : Byte) : Except Fault Bool :=
  if h : k.toNat < 16 then .ok (s.key[k.toNat]'h) else .error .keyIndexOutOfRange

/-! ## Skips -/

/-- A skip: `pc <- pc + 2` on the advanced `pc` if the condition holds (41_control_flow.md R120). -/
def State.skipIf (s : State) (taken : Bool) : State := if taken then s.setPc (s.pc + 2) else s

/-! ## Ending a step -/

/-- `return Ok(redraw)` (40_step_cycle.md R104). -/
def finish (redraw : Bool) (s : State) : StepOutcome := .next (s.setRedraw redraw)

/-! ## Taking a fault (60_exceptions.md R231 to R234). There is no return from a fault (R235). -/

/-- The cause codes of R231. -/
def Fault.code : Fault → Nat
  | .pcOutOfBounds => 1
  | .illegalOpcode => 2
  | .stackOverflow => 3
  | .stackUnderflow => 4
  | .indexOutOfBounds => 5
  | .keyIndexOutOfRange => 6

/-- `code` of a fault record (10_state.md R34). -/
def FaultRecord.code (r : FaultRecord) : Nat := r.cause.code

/-- Fault entry (R233), on the state as it was before the step: only `status` changes. The record's `pc` is the faulting
instruction's address, which `pc` still holds. -/
def State.enterFault (s : State) (cause : Fault) (word : Option Word) : State :=
  s.setStatus (.faulted { cause := cause, pc := s.pc, word := word })

/-- Undo the fetch's advance of `pc` (40_step_cycle.md R105). -/
def State.unfetch (s : State) : State := s.setPc (s.pc - 2)

/-- The handler of R100 around Execute: `s` is the state after the fetch of `i`. A raised fault discards whatever the
instruction computed, undoes the fetch and enters the fault with the fetched word, which is the word of `i`. -/
def attempt (i : Instr) (s : State) (r : Except Fault State) : StepOutcome :=
  match r with
  | .ok t => .next t
  | .error c => .next (s.unfetch.enterFault c (some (encode i)))

/-! ## Fetch (40_step_cycle.md R101) -/

/-- The big-endian word at `pc` (20_memory.md R57), read from memory as it stands (R68). -/
def State.fetchWord (s : State) : Word := wordOfBytes (s.readMem s.pc.toNat) (s.readMem (s.pc.toNat + 1))

/-- `Fetch()`: the word at `pc` and the state with `pc` advanced by 2, or PcOutOfBounds. -/
def State.fetch (s : State) : Except Fault (Word × State) :=
  if fetchLimit ≤ s.pc.toNat then .error .pcOutOfBounds else .ok (s.fetchWord, s.setPc (s.pc + 2))

/-! ## Steps that fetch nothing -/

/-- `WaitStep(x, latch)` (40_step_cycle.md R106): nothing changes until a key is latched, and then the step completes the
FX0A (45_timers_keys.md R219). It returns `Ok(0)` either way. -/
def State.waitStep (s : State) (x : Nibble) (latch : Option (Fin 16)) : State :=
  match latch with
  | none => s.setRedraw false
  | some k => (((s.writeV x (BitVec.ofNat 8 k.val)).setPc (s.pc + 2)).setStatus .running).setRedraw false

/-- A step of a faulted machine changes nothing (40_step_cycle.md R108). -/
def State.haltedStep (s : State) : State := s

end Sys2Proof.Machine
end

