-- ==== Sys2Proof/Machine/Operands.lean ====
section
/-! DEFINITION. The operand forms (30_encoding.md R82, R83): zero extension, narrowing, the operands that a quirk flag selects,
the register block of FX55 and FX65, and the decimal digits of FX33. -/

namespace Sys2Proof.Machine

/-- `wrap8` (00_scope.md R13). -/
def wrap8 (n : Nat) : Byte := BitVec.ofNat 8 n

/-- `wrap16` (00_scope.md R13). -/
def wrap16 (n : Nat) : Word := BitVec.ofNat 16 n

/-- `NNN` as a 16-bit address (R82). -/
def addressOf (nnn : Addr12) : Word := nnn.zeroExtend 16

/-- A byte widened to 16 bits: `zext_16` (00_scope.md R13). -/
def widen (b : Byte) : Word := b.zeroExtend 16

/-- The operand of 8XY6 and 8XYE (42_register_alu.md R158, R159). -/
def State.shiftSource (s : State) (x y : Nibble) : Byte :=
  if s.cfg.shiftUsesVy then s.readV y else s.readV x

/-- The register BNNN adds: V0, or the one that the top nibble of NNN names (41_control_flow.md R129). -/
def State.jumpOffset (s : State) (nnn : Addr12) : Byte :=
  if s.cfg.jumpOffsetUsesVx then s.readV (nnn.extractLsb' 8 4) else s.readV 0

/-- The target of BNNN. The sum is not masked to 12 bits; it is at most 0x10FE, so 16 bits hold it (10_state.md R23). -/
def State.jumpTarget (s : State) (nnn : Addr12) : Word := addressOf nnn + widen (s.jumpOffset nnn)

/-- How many registers V0..VX are. -/
def blockLength (x : Nibble) : Nat := x.toNat + 1

/-- V0 to VX, in order. -/
def State.readBlock (s : State) (x : Nibble) : List Byte := s.v.toList.take (blockLength x)

/-- V0 to VX take the bytes `mem[a]`, `mem[a + 1]`, ...; the registers above VX keep their values. -/
def State.loadBlock (s : State) (x : Nibble) (a : Nat) : State :=
  s.setRegs (Vector.ofFn fun j => if j.val ≤ x.toNat then s.readMem (a + j.val) else s.v[j])

/-- The `I` that FX55 and FX65 leave (43_index_memory.md R177, R178). -/
def State.nextIdx (s : State) (x : Nibble) : Word :=
  if s.cfg.loadStoreIncrementsI then wrap16 (s.idx.toNat + x.toNat + 1) else s.idx

/-- FX55 and FX65 after the access: only `I` may change. -/
def State.advanceIdx (s : State) (x : Nibble) : State := s.setIdx (s.nextIdx x)

/-- The address FX29 computes: 0x050 + 5 VX, not masked (43_index_memory.md R172). -/
def glyphAddress (b : Byte) : Word := wrap16 (fontBase + b.toNat * glyphBytes)

/-- The three decimal digits, hundreds first (43_index_memory.md R173). -/
def bcdDigits (b : Byte) : List Byte :=
  [wrap8 (b.toNat / 100), wrap8 (b.toNat / 10 % 10), wrap8 (b.toNat % 10)]

/-- `random_byte()` (42_register_alu.md R162): the free value of the next draw. -/
def State.randomByte (s : State) : Byte := Config.randomByte s.draws

/-- The next draw is a fresh one. -/
def State.countDraw (s : State) : State := s.setDraws (s.draws + 1)

end Sys2Proof.Machine
end

