-- ==== Sys2Proof/Machine/Flags.lean ====
section
/-! DEFINITION. The values instructions write into VF as a flag (10_state.md R35, 42_register_alu.md R157). The collision
flag of DXYN is computed by the compositor (Sys2Proof/Machine/Compositor.lean). -/

namespace Sys2Proof.Machine

/-- 8XY4: carry out of bit 7 (R154). -/
def carryFlag (a b : Byte) : Bool := decide (a.toNat + b.toNat > 255)

/-- 8XY5 and 8XY7: no borrow in `a - b` (R155, R156). -/
def noBorrowFlag (a b : Byte) : Bool := decide (b.toNat ≤ a.toNat)

/-- 8XY6: bit 0 of the source, the bit shifted out (R158). -/
def shiftRightFlag (src : Byte) : Bool := src.getLsbD 0

/-- 8XYE: bit 7 of the source, the bit shifted out (R159). -/
def shiftLeftFlag (src : Byte) : Bool := src.getLsbD 7

/-- FX1E: the new `I` is above 0x0FFF (43_index_memory.md R171). -/
def indexFlag (t : Word) : Bool := decide (t.toNat > 0x0FFF)

end Sys2Proof.Machine
end

