-- ==== Sys2Proof/Machine/Alu.lean ====
section
/-! DEFINITION. The meanings of the register and ALU instructions (42_register_alu.md), on the state after the fetch. An
instruction that writes a flag reads every operand first, then writes VX, then VF (R141). -/

namespace Sys2Proof.Machine

/-- LD VX, NN (R142). -/
def execLdImm (x : Nibble) (nn : Byte) (s : State) : StepOutcome := finish false (s.writeV x nn)

/-- ADD VX, NN (R143): no flag. -/
def execAddImm (x : Nibble) (nn : Byte) (s : State) : StepOutcome :=
  finish false (s.writeV x (wrap8 ((s.readV x).toNat + nn.toNat)))

/-- LD VX, VY (R150). -/
def execLdReg (x y : Nibble) (s : State) : StepOutcome := finish false (s.writeV x (s.readV y))

/-- OR VX, VY (R151): no flag. -/
def execOrReg (x y : Nibble) (s : State) : StepOutcome := finish false (s.writeV x (s.readV x ||| s.readV y))

/-- AND VX, VY (R152): no flag. -/
def execAndReg (x y : Nibble) (s : State) : StepOutcome := finish false (s.writeV x (s.readV x &&& s.readV y))

/-- XOR VX, VY (R153): no flag. -/
def execXorReg (x y : Nibble) (s : State) : StepOutcome := finish false (s.writeV x (s.readV x ^^^ s.readV y))

/-- ADD VX, VY (R154). -/
def execAddReg (x y : Nibble) (s : State) : StepOutcome :=
  let a := s.readV x
  let b := s.readV y
  finish false ((s.writeV x (wrap8 (a.toNat + b.toNat))).writeFlag (carryFlag a b))

/-- SUB VX, VY (R155): the difference modulo 256. -/
def execSubReg (x y : Nibble) (s : State) : StepOutcome :=
  let a := s.readV x
  let b := s.readV y
  finish false ((s.writeV x (a - b)).writeFlag (noBorrowFlag a b))

/-- SHR VX, VY (R158). -/
def execShr (x y : Nibble) (s : State) : StepOutcome :=
  let src := s.shiftSource x y
  finish false ((s.writeV x (src >>> 1)).writeFlag (shiftRightFlag src))

/-- SUBN VX, VY (R156): the difference modulo 256. -/
def execSubn (x y : Nibble) (s : State) : StepOutcome :=
  let a := s.readV x
  let b := s.readV y
  finish false ((s.writeV x (b - a)).writeFlag (noBorrowFlag b a))

/-- SHL VX, VY (R159). -/
def execShl (x y : Nibble) (s : State) : StepOutcome :=
  let src := s.shiftSource x y
  finish false ((s.writeV x (src <<< 1)).writeFlag (shiftLeftFlag src))

/-- RND VX, NN (R162): a fresh free byte, masked. -/
def execRnd (x : Nibble) (nn : Byte) (s : State) : StepOutcome :=
  finish false ((s.writeV x (s.randomByte &&& nn)).countDraw)

end Sys2Proof.Machine
end

