-- ==== Sys2Proof/Machine/ControlFlow.lean ====
section
/-! DEFINITION. The meanings of the control transfers and skips (41_control_flow.md), on the state after the fetch. -/

namespace Sys2Proof.Machine

/-- RET (R121). -/
def execRet (s : State) : StepOutcome :=
  attempt .ret s <| s.pop.map fun r => (r.2.setPc r.1).setRedraw false

/-- JP NNN (R122). -/
def execJp (nnn : Addr12) (s : State) : StepOutcome := finish false (s.setPc (addressOf nnn))

/-- CALL NNN (R123): the pushed `pc` is the address after the call. -/
def execCall (nnn : Addr12) (s : State) : StepOutcome :=
  attempt (.call nnn) s <| (s.push s.pc).map fun t => (t.setPc (addressOf nnn)).setRedraw false

/-- SE VX, NN (R124). -/
def execSeImm (x : Nibble) (nn : Byte) (s : State) : StepOutcome :=
  finish false (s.skipIf (decide (s.readV x = nn)))

/-- SNE VX, NN (R125). -/
def execSneImm (x : Nibble) (nn : Byte) (s : State) : StepOutcome :=
  finish false (s.skipIf (decide (s.readV x ≠ nn)))

/-- SE VX, VY (R126). -/
def execSeReg (x y : Nibble) (s : State) : StepOutcome :=
  finish false (s.skipIf (decide (s.readV x = s.readV y)))

/-- SNE VX, VY (R127). -/
def execSneReg (x y : Nibble) (s : State) : StepOutcome :=
  finish false (s.skipIf (decide (s.readV x ≠ s.readV y)))

/-- JP V0, NNN (R129). -/
def execJpV0 (nnn : Addr12) (s : State) : StepOutcome := finish false (s.setPc (s.jumpTarget nnn))

end Sys2Proof.Machine
end

