-- ==== Sys2Proof/Machine/Compositor.lean ====
section
/-! DEFINITION. The display compositor (44_display.md R190 to R197), as the loops of R192: rows from the top, columns from the
left, each row stopping at the right edge and the sprite stopping at the bottom edge. -/

namespace Sys2Proof.Machine

/-- Every pixel off. -/
def Display.clear : Display := Vector.replicate 32 (Vector.replicate 64 false)

/-- `pix(x, y)`: column x, row y. Nothing outside the grid is on. -/
def Display.pix (d : Display) (x y : Nat) : Bool :=
  if h : y < 32 then if hx : x < 64 then d[y][x] else false else false

/-- `pix(x, y) <- b`. The loops below reach only pixels of the grid (R194). -/
def Display.setPix (d : Display) (x y : Nat) (b : Bool) : Display :=
  if h : y < 32 then if hx : x < 64 then d.set y (d[y].set x b) else d else d

/-- R193: the column a sprite starts at. -/
def startColumn (b : Byte) : Nat := b.toNat % 64

/-- R193: the row a sprite starts at. -/
def startRow (b : Byte) : Nat := b.toNat % 32

/-- R196: one sprite bit on one pixel of the grid. A set bit on a pixel that is on turns it off and is a collision; the
flag never returns to false within a draw (R197). -/
def plotBit (bit : Bool) (x y : Nat) (r : Display × Bool) : Display × Bool :=
  if bit then
    if r.1.pix x y then (r.1.setPix x y false, true) else (r.1.setPix x y true, r.2)
  else r

/-- The last `n` columns of a sprite row, from screen column `x` on: the next bit is bit `n - 1` (R195), and the row stops
at the right edge (R194). -/
def plotColumns (row : Byte) (y : Nat) : Nat → Nat → Display × Bool → Display × Bool
  | 0, _, r => r
  | n + 1, x, r =>
    if 64 ≤ x then r else plotColumns row y n (x + 1) (plotBit (row.getLsbD n) x y r)

/-- The rows of a sprite from screen row `y` on; the sprite stops at the bottom edge (R194). -/
def plotRows (x0 : Nat) : List Byte → Nat → Display × Bool → Display × Bool
  | [], _, r => r
  | row :: rest, y, r =>
    if 32 ≤ y then r else plotRows x0 rest (y + 1) (plotColumns row y 8 x0 r)

/-- A whole sprite: the display afterwards, and whether any collision occurred in this draw (R197). -/
def plotSprite (rows : List Byte) (x0 y0 : Nat) (d : Display) : Display × Bool :=
  plotRows x0 rows y0 (d, false)

end Sys2Proof.Machine
end

