-- ==== Sys2Proof/Machine/DisplayInstrs.lean ====
section
/-! DEFINITION. The meanings of 00E0 and DXYN (44_display.md), the two instructions that write the display. -/

namespace Sys2Proof.Machine

/-- CLS (R191). -/
def execCls (s : State) : StepOutcome := finish true (s.setDisp Display.clear)

/-- DRW VX, VY, N (R192): the coordinates are read before VF is written; all N rows are checked and read before any is
plotted. -/
def execDrw (x y n : Nibble) (s : State) : StepOutcome :=
  attempt (.drw x y n) s <| (checkRange s.idx.toNat n.toNat).map fun _ =>
    let r := plotSprite (s.readBytes s.idx.toNat n.toNat) (startColumn (s.readV x)) (startRow (s.readV y)) s.disp
    ((s.setDisp r.1).writeFlag r.2).setRedraw true

end Sys2Proof.Machine
end

