-- ==== Sys2Proof/Machine/IndexMemory.lean ====
section
/-! DEFINITION. The meanings of the index register and memory instructions (43_index_memory.md), on the state after the fetch.
Every address is `I + j`, computed without wrap and checked whole before the first access (R174). -/

namespace Sys2Proof.Machine

/-- LD I, NNN (R170). -/
def execLdI (nnn : Addr12) (s : State) : StepOutcome := finish false (s.setIdx (addressOf nnn))

/-- ADD I, VX (R171). -/
def execAddIVx (x : Nibble) (s : State) : StepOutcome :=
  let t := wrap16 (s.idx.toNat + (s.readV x).toNat)
  finish false ((s.setIdx t).writeFlag (indexFlag t))

/-- LD F, VX (R172). -/
def execLdFVx (x : Nibble) (s : State) : StepOutcome := finish false (s.setIdx (glyphAddress (s.readV x)))

/-- LD B, VX (R173). -/
def execLdBVx (x : Nibble) (s : State) : StepOutcome :=
  attempt (.ldBVx x) s <| (checkRange s.idx.toNat 3).map fun _ =>
    (s.writeBytes s.idx.toNat (bcdDigits (s.readV x))).setRedraw false

/-- LD [I], VX (R177). -/
def execLdMemVx (x : Nibble) (s : State) : StepOutcome :=
  attempt (.ldMemVx x) s <| (checkRange s.idx.toNat (blockLength x)).map fun _ =>
    ((s.writeBytes s.idx.toNat (s.readBlock x)).advanceIdx x).setRedraw false

/-- LD VX, [I] (R178). -/
def execLdVxMem (x : Nibble) (s : State) : StepOutcome :=
  attempt (.ldVxMem x) s <| (checkRange s.idx.toNat (blockLength x)).map fun _ =>
    ((s.loadBlock x s.idx.toNat).advanceIdx x).setRedraw false

end Sys2Proof.Machine
end

