-- ==== Sys2Proof/Machine/TimersKeys.lean ====
section
/-! DEFINITION. The meanings of the timer and key instructions (45_timers_keys.md), on the state after the fetch. -/

namespace Sys2Proof.Machine

/-- SKP VX (R213). -/
def execSkp (x : Nibble) (s : State) : StepOutcome :=
  attempt (.skp x) s <| (s.keyAt (s.readV x)).map fun down => (s.skipIf down).setRedraw false

/-- SKNP VX (R214). -/
def execSknp (x : Nibble) (s : State) : StepOutcome :=
  attempt (.sknp x) s <| (s.keyAt (s.readV x)).map fun down => (s.skipIf (!down)).setRedraw false

/-- LD VX, DT (R210). -/
def execLdVxDt (x : Nibble) (s : State) : StepOutcome := finish false (s.writeV x s.dt)

/-- LD VX, K (R217): `pc` goes back to this instruction's address, and the machine waits for a key press. -/
def execLdVxK (x : Nibble) (s : State) : StepOutcome :=
  finish false (s.unfetch.setStatus (.awaitingKey x none))

/-- LD DT, VX (R211). -/
def execLdDtVx (x : Nibble) (s : State) : StepOutcome := finish false (s.setDt (s.readV x))

/-- LD ST, VX (R212). -/
def execLdStVx (x : Nibble) (s : State) : StepOutcome := finish false (s.setSt (s.readV x))

end Sys2Proof.Machine
end

