-- ==== Sys2Proof/Machine/Step.lean ====
section
/-! DEFINITION. One `step()` (40_step_cycle.md R100), and placing an instruction where the next step fetches. -/

namespace Sys2Proof.Machine

/-- R100. A fault is a next state with status `faulted`, everything else as before the step (R105, log entry 5), so every
step answers a next state; what `step()` returns to its caller is `State.stepResult` of it. -/
def step (s : State) : Host.Outcome State Fault Refusal :=
  match s.status with
  | .faulted _ => .next s.haltedStep
  | .awaitingKey x latch => .next (s.waitStep x latch)
  | .running =>
    match s.fetch with
    | .error c => .next (s.enterFault c none)
    | .ok (w, t) =>
      match decode w with
      | .error _ => .next (s.enterFault .illegalOpcode (some w))
      | .ok i => exec i t

/-- `s` with the opcode table's word `w` stored where the next step fetches, so that this step runs it (log entry 9): the
status is made Running, since only a running step fetches, and a `pc` that no fetch accepts is moved to 0x200. -/
def State.withFetchWord (s : State) (nbits w : Nat) : State :=
  let t := s.setStatus .running
  let t := if fetchLimit ≤ t.pc.toNat then t.setPc (BitVec.ofNat 16 progBase) else t
  t.writeBytes t.pc.toNat [highByte (tableWord nbits w), lowByte (tableWord nbits w)]

end Sys2Proof.Machine
end

