-- ==== Sys2Proof/Machine/Interface.lean ====
section
/-! DEFINITION. The caller's operations other than `step` (00_scope.md R6): `tick_timers`, `set_keys`, `load`, and the
read-only outputs. `construct` is `State.construct`. -/

namespace Sys2Proof.Machine

/-- Whether the run has ended in a fault (R236: then no operation changes anything). -/
def State.isFaulted (s : State) : Bool :=
  match s.status with
  | .faulted _ => true
  | _ => false

/-! ## `tick_timers` (45_timers_keys.md R215) -/

/-- One decrement, saturating at 0. -/
def countDown (b : Byte) : Byte := if 0 < b.toNat then b - 1 else b

/-- `tick_timers()`: both timers, in Running and in AwaitingKey alike; nothing else changes. -/
def State.tickTimers (s : State) : State :=
  if s.isFaulted then s else (s.setDt (countDown s.dt)).setSt (countDown s.st)

/-! ## `set_keys` (45_timers_keys.md R216, R218) -/

/-- The least key that `k` reports pressed and the key state before it did not. -/
def newlyPressed (before k : Keys) : Option (Fin 16) :=
  (List.finRange 16).find? fun i => k[i] && !before[i]

/-- The latch: a press fills an empty one; a full one is kept. -/
def latchKey (before k : Keys) (status : Status) : Status :=
  match status with
  | .awaitingKey x none => .awaitingKey x (newlyPressed before k)
  | other => other

/-- `set_keys(k)`. -/
def State.setKeys (s : State) (k : Keys) : State :=
  if s.isFaulted then s else (s.setStatus (latchKey s.key k s.status)).setKey k

/-! ## `load` (70_reset_and_hazards.md R263, R264) -/

/-- What `load` returns. -/
inductive LoadResult where
  | loaded
  /-- R264: the image is larger than memory from 0x200 on; a caller-contract fault, not a machine fault. -/
  | programTooLarge
  /-- R236: nothing is loaded into a faulted machine. -/
  | machineFaulted
  deriving DecidableEq, Repr

/-- `load(bytes)`: what it returns, and the state afterwards. A rejected load changes nothing. -/
def State.load (s : State) (bytes : List Byte) : LoadResult × State :=
  if s.isFaulted then (.machineFaulted, s)
  else if bytes.length > memSize - progBase then (.programTooLarge, s)
  else (.loaded, s.writeBytes progBase bytes)

/-! ## Outputs -/

/-- `StepResult` (00_scope.md R7). -/
inductive StepResult where
  | ok (redraw : Bool)
  | fault (record : FaultRecord)
  deriving DecidableEq, Repr

/-- What the step that led to `s` returned to its caller (40_step_cycle.md R100). -/
def State.stepResult (s : State) : StepResult :=
  match s.status with
  | .faulted r => .fault r
  | _ => .ok s.redraw

/-- The framebuffer output, row-major: element `y * 64 + x` is pixel (x, y) (10_state.md R30). -/
def State.framebuffer (s : State) : Vector Bool 2048 :=
  Vector.ofFn fun j => s.disp[j.val / 64][j.val % 64]

/-- The sound output (45_timers_keys.md R222). -/
def State.soundValue (s : State) : Byte := s.st

end Sys2Proof.Machine
end

