-- ==== Sys2Proof/Machine/Caller.lean ====
section
/-! DEFINITION. The caller's operations in any order (40_step_cycle.md R107): a run of the block is a list of them, each run
to completion before the next begins. -/

namespace Sys2Proof.Machine

/-- One operation on a constructed block (00_scope.md R6). -/
inductive BlockOp where
  | step
  | tickTimers
  | setKeys (k : Keys)
  | load (bytes : List Byte)
  deriving DecidableEq, Repr

/-- The state after one operation. -/
def BlockOp.run (op : BlockOp) (s : State) : StepOutcome :=
  match op with
  | .step => Machine.step s
  | .tickTimers => .next s.tickTimers
  | .setKeys k => .next (s.setKeys k)
  | .load bytes => .next (s.load bytes).2

/-- The state after a list of operations, in order. -/
def runOps : List BlockOp → State → StepOutcome
  | [], s => .next s
  | op :: rest, s =>
    match op.run s with
    | .next t => runOps rest t
    | .fault f => .fault f
    | .refused r => .refused r

end Sys2Proof.Machine
end

