-- ==== Sys2Proof/Safety.lean ====
section
/-! DEFINITION. What a safe state is: the facts the spec states of every state of a run, in the terms the claims use. -/

namespace Sys2Proof.Machine

/-- 10_state.md R34 and 60_exceptions.md R231 on a faulted machine: the record's `pc` is the faulting instruction's address,
which `pc` still holds; the fetch fault has no word and every other fault has the word that still stands at `pc`. -/
def State.recordAgrees (s : State) (r : FaultRecord) : Prop :=
  r.pc = s.pc ∧
  (r.cause = .pcOutOfBounds → fetchLimit ≤ s.pc.toNat ∧ r.word = none) ∧
  (r.cause ≠ .pcOutOfBounds → s.pc.toNat < fetchLimit ∧ r.word = some s.fetchWord)

/-- The invariant of every operation:
memory keeps its canonical form (the model's own, log entry 12; no address outside 0x000..0xFFF is ever written, R62);
`pc` never exceeds 0x10FE and no stack entry exceeds 0xFFF (10_state.md R23);
a waiting machine's `pc` is below 0xFFE, since it is the address its FX0A was fetched at (45_timers_keys.md R217; a later load
may have overwritten the word there, so nothing is said of it);
a fault record agrees with the state it was taken in. -/
structure State.Inv (s : State) : Prop where
  memWf : s.mem.wf s.cfg.font
  pcBound : s.pc.toNat ≤ 0x10FE
  stackBound : ∀ j : Fin 16, s.stack[j].toNat ≤ 0xFFF
  waitPc : ∀ x latch, s.status = .awaitingKey x latch → s.pc.toNat < fetchLimit
  record : ∀ r, s.status = .faulted r → s.recordAgrees r

/-- A safe state: the run has not ended in a fault (40_step_cycle.md R108). -/
def State.Safe (s : State) : Prop := s.isFaulted = false

end Sys2Proof.Machine
end

