-- ==== Sys2Proof/Certificates/Slice0/Obligations.lean ====
section
/-! DEFINITION. The statements for the provers. An instruction's statement is about `exec` on the state after the fetch, whose
`pc` is the instruction's address plus 2 (40_step_cycle.md R101); `Obligations.StepRunsDecodedInstruction` carries it to a
step. A statement's whole frame is one equation: `t = { s with f := t.f, … }` says that every field of State but the named
ones is as before, and the lines after it say what each named field holds. -/

namespace Sys2Proof.Machine

/-! ## What the statements speak of -/

/-- `t` differs from `s` in general registers only (the redraw output, the model's own field, is left to
`Obligations.RedrawExactlyWhenTheDisplayIsWritten`): register `k` holds `r k`, and every byte of memory reads as before. -/
def State.changesOnlyRegs (s t : State) (r : Nibble → Byte) : Prop :=
  t = { s with v := t.v, redraw := t.redraw } ∧ (∀ k, t.readV k = r k) ∧ ∀ a, t.readMem a = s.readMem a

/-- `t` differs from `s` in `pc` only (and in the redraw output, as above), which holds `p`. -/
def State.changesOnlyPc (s t : State) (p : Word) : Prop :=
  t = { s with pc := t.pc, redraw := t.redraw } ∧ t.pc = p ∧ ∀ a, t.readMem a = s.readMem a

/-- 60_exceptions.md R233 seen from the state after the fetch: `pc` is back at the instruction, the status is faulted with
the cause, the instruction's address and its word, and nothing else has changed. -/
def State.faultedBy (s : State) (c : Fault) (w : Nat) : State :=
  { s with
    pc := s.pc - 2
    status := .faulted { cause := c, pc := s.pc - 2, word := some (BitVec.ofNat 16 w) } }

/-- The number of a flag: 1 or 0. -/
def flagByte (p : Prop) [Decidable p] : Byte := if p then 1 else 0

/-- Whether the N-row sprite at `I`, started at column `x0` and row `y0`, has a set bit on screen position (x, y)
(44_display.md R194, R195): row `y - y0` is the byte `mem[I + (y - y0)]`, and its column `x - x0` is bit `7 - (x - x0)`.
Columns count from the left, rows from the top; nothing wraps. -/
def State.spriteBit (s : State) (x0 y0 n x y : Nat) : Bool :=
  decide (x0 ≤ x ∧ x < x0 + 8 ∧ y0 ≤ y ∧ y < y0 + n) &&
    (s.readMem (s.idx.toNat + (y - y0))).getLsbD (7 - (x - x0))

/-- The fault a running step owes, by the table of 60_exceptions.md R231 in the order of R234. -/
def State.faultDue (s : State) : Option Fault :=
  if 0xFFE ≤ s.pc.toNat then some .pcOutOfBounds
  else
    match decode (wordOfBytes (s.readMem s.pc.toNat) (s.readMem (s.pc.toNat + 1))) with
    | .error _ => some .illegalOpcode
    | .ok (.call _) => if s.sp.val = 16 then some .stackOverflow else none
    | .ok .ret => if s.sp.val = 0 then some .stackUnderflow else none
    | .ok (.drw _ _ n) => if n.toNat ≠ 0 ∧ s.idx.toNat + n.toNat - 1 > 0xFFF then some .indexOutOfBounds else none
    | .ok (.ldBVx _) => if s.idx.toNat + 2 > 0xFFF then some .indexOutOfBounds else none
    | .ok (.ldMemVx x) => if s.idx.toNat + x.toNat > 0xFFF then some .indexOutOfBounds else none
    | .ok (.ldVxMem x) => if s.idx.toNat + x.toNat > 0xFFF then some .indexOutOfBounds else none
    | .ok (.skp x) => if (s.readV x).toNat > 15 then some .keyIndexOutOfRange else none
    | .ok (.sknp x) => if (s.readV x).toNat > 15 then some .keyIndexOutOfRange else none
    | .ok _ => none

/-- Whether memory holds a chain of calls from address `a` on: at `a` a fetchable CALL to the first target, at that target a
CALL to the next, and so on. -/
def State.callChain (s : State) : Word → List Addr12 → Bool
  | _, [] => true
  | a, nnn :: rest =>
    decide (a.toNat < 0xFFE) &&
      decide (decode (wordOfBytes (s.readMem a.toNat) (s.readMem (a.toNat + 1))) = .ok (.call nnn)) &&
      s.callChain (BitVec.ofNat 16 nnn.toNat) rest

/-- Where a chain of calls goes: the first call's address, then each call's target. -/
def callSites (a : Word) (targets : List Addr12) : List Word := a :: targets.map fun nnn => BitVec.ofNat 16 nnn.toNat

/-- The general registers an instruction may write (10_state.md R20 and R35): VX, VF as a flag, the block V0 to VX of FX65.
FX0A writes VX only when its wait completes. -/
def writesReg (k : Nibble) : Instr → Prop
  | .ldImm x _ | .addImm x _ | .ldReg x _ | .orReg x _ | .andReg x _ | .xorReg x _ | .rnd x _ | .ldVxDt x => k = x
  | .addReg x _ | .subReg x _ | .shr x _ | .subn x _ | .shl x _ => k = x ∨ k = 15
  | .addIVx _ | .drw _ _ _ => k = 15
  | .ldVxMem x => k.toNat ≤ x.toNat
  | .cls | .ret | .jp _ | .call _ | .seImm _ _ | .sneImm _ _ | .seReg _ _ | .sneReg _ _ | .ldI _ | .jpV0 _ | .skp _
  | .sknp _ | .ldVxK _ | .ldDtVx _ | .ldStVx _ | .ldFVx _ | .ldBVx _ | .ldMemVx _ => False

/-- The instructions that set `pc` beyond the fetch's advance (10_state.md R22): the jumps, CALL, RET, the skips, FX0A. -/
def setsPc : Instr → Prop
  | .ret | .jp _ | .call _ | .jpV0 _ | .seImm _ _ | .sneImm _ _ | .seReg _ _ | .sneReg _ _ | .skp _ | .sknp _
  | .ldVxK _ => True
  | .cls | .ldImm _ _ | .addImm _ _ | .ldReg _ _ | .orReg _ _ | .andReg _ _ | .xorReg _ _ | .addReg _ _ | .subReg _ _
  | .shr _ _ | .subn _ _ | .shl _ _ | .ldI _ | .rnd _ _ | .drw _ _ _ | .ldVxDt _ | .ldDtVx _ | .ldStVx _ | .addIVx _
  | .ldFVx _ | .ldBVx _ | .ldMemVx _ | .ldVxMem _ => False

/-- The nibble of a word at a place value: X at 256, Y at 16, N at 1. -/
def nibbleOf (w : Word) (place : Nat) : Nibble := BitVec.ofNat 4 (w.toNat / place)

/-- NN of a word. -/
def byteOf (w : Word) : Byte := BitVec.ofNat 8 w.toNat

/-- NNN of a word. -/
def addressBitsOf (w : Word) : Addr12 := BitVec.ofNat 12 w.toNat

/-- The rows of spec/opcode_table.json: mask, match, and the instruction of a word that matches, its fields read off the
word by division (X = bits 11..8, Y = bits 7..4, N = bits 3..0, NN = bits 7..0, NNN = bits 11..0). -/
def opcodeRows : List (Word × Word × (Word → Instr)) :=
  [ (0xFFFF, 0x00E0, fun _ => .cls), (0xFFFF, 0x00EE, fun _ => .ret),
    (0xF000, 0x1000, fun w => .jp (addressBitsOf w)), (0xF000, 0x2000, fun w => .call (addressBitsOf w)),
    (0xF000, 0x3000, fun w => .seImm (nibbleOf w 256) (byteOf w)),
    (0xF000, 0x4000, fun w => .sneImm (nibbleOf w 256) (byteOf w)),
    (0xF00F, 0x5000, fun w => .seReg (nibbleOf w 256) (nibbleOf w 16)),
    (0xF000, 0x6000, fun w => .ldImm (nibbleOf w 256) (byteOf w)),
    (0xF000, 0x7000, fun w => .addImm (nibbleOf w 256) (byteOf w)) ] ++
  [ (0xF00F, 0x8000, fun w => .ldReg (nibbleOf w 256) (nibbleOf w 16)),
    (0xF00F, 0x8001, fun w => .orReg (nibbleOf w 256) (nibbleOf w 16)),
    (0xF00F, 0x8002, fun w => .andReg (nibbleOf w 256) (nibbleOf w 16)),
    (0xF00F, 0x8003, fun w => .xorReg (nibbleOf w 256) (nibbleOf w 16)),
    (0xF00F, 0x8004, fun w => .addReg (nibbleOf w 256) (nibbleOf w 16)),
    (0xF00F, 0x8005, fun w => .subReg (nibbleOf w 256) (nibbleOf w 16)),
    (0xF00F, 0x8006, fun w => .shr (nibbleOf w 256) (nibbleOf w 16)),
    (0xF00F, 0x8007, fun w => .subn (nibbleOf w 256) (nibbleOf w 16)),
    (0xF00F, 0x800E, fun w => .shl (nibbleOf w 256) (nibbleOf w 16)) ] ++
  [ (0xF00F, 0x9000, fun w => .sneReg (nibbleOf w 256) (nibbleOf w 16)),
    (0xF000, 0xA000, fun w => .ldI (addressBitsOf w)), (0xF000, 0xB000, fun w => .jpV0 (addressBitsOf w)),
    (0xF000, 0xC000, fun w => .rnd (nibbleOf w 256) (byteOf w)),
    (0xF000, 0xD000, fun w => .drw (nibbleOf w 256) (nibbleOf w 16) (nibbleOf w 1)),
    (0xF0FF, 0xE09E, fun w => .skp (nibbleOf w 256)), (0xF0FF, 0xE0A1, fun w => .sknp (nibbleOf w 256)),
    (0xF0FF, 0xF007, fun w => .ldVxDt (nibbleOf w 256)), (0xF0FF, 0xF00A, fun w => .ldVxK (nibbleOf w 256)),
    (0xF0FF, 0xF015, fun w => .ldDtVx (nibbleOf w 256)), (0xF0FF, 0xF018, fun w => .ldStVx (nibbleOf w 256)),
    (0xF0FF, 0xF01E, fun w => .addIVx (nibbleOf w 256)), (0xF0FF, 0xF029, fun w => .ldFVx (nibbleOf w 256)),
    (0xF0FF, 0xF033, fun w => .ldBVx (nibbleOf w 256)), (0xF0FF, 0xF055, fun w => .ldMemVx (nibbleOf w 256)),
    (0xF0FF, 0xF065, fun w => .ldVxMem (nibbleOf w 256)) ]

/-- The illegal words, as 30_encoding.md R90 lists them by family. -/
def illegalByFamily (w : Word) : Prop :=
  let f := w.toNat / 4096
  let n := w.toNat % 16
  let nn := w.toNat % 256
  (f = 0 ∧ w ≠ 0x00E0 ∧ w ≠ 0x00EE) ∨
  (f = 5 ∧ n ≠ 0) ∨
  (f = 8 ∧ n ∈ [8, 9, 10, 11, 12, 13, 15]) ∨
  (f = 9 ∧ n ≠ 0) ∨
  (f = 14 ∧ nn ∉ [0x9E, 0xA1]) ∨
  (f = 15 ∧ nn ∉ [0x07, 0x0A, 0x15, 0x18, 0x1E, 0x29, 0x33, 0x55, 0x65])

end Sys2Proof.Machine

open Sys2Proof Sys2Proof.Machine

/-! ## Encoding -/

/-- Decoding the encoding of an instruction gives it back, with every operand at every value, whatever bytes follow. -/
def Obligations.DecodeOfEncodeIsIdentity : Prop :=
  ∀ (i : Instr) (rest : List Byte), i.wellFormed = true →
    decode (encode i) = .ok i ∧ decodeBytes (encodeBytes i ++ rest) = .ok (i, rest)

/-- The other direction: a word that decodes is the encoding of what it decodes to, so no bit of a legal word is dropped.
That the fixed bits of families 0, 5 and 9 are all checked is the spec's own choice (92_eei_decisions.md D16, D17). -/
def Obligations.EncodeOfDecodeIsIdentity : Prop :=
  ∀ (w : Word) (i : Instr), decode w = .ok i → encode i = w

/-- The decoder follows spec/opcode_table.json: a word that matches a row decodes to the row's instruction with the row's
fields, and a word that matches no row is refused by name (families 0, 5 and 9: the spec's own choices, 92_eei_decisions.md D16
and D17). -/
def Obligations.DecoderFollowsOpcodeTable : Prop :=
  ∀ w : Word,
    (∀ row ∈ opcodeRows, w &&& row.1 = row.2.1 → decode w = .ok (row.2.2 w)) ∧
    ((∀ row ∈ opcodeRows, w &&& row.1 ≠ row.2.1) → decode w = .error (.illegalOpcode w))

/-- 30_encoding.md R90: the illegal words are exactly those of its table, and a running step that fetches one raises
IllegalOpcode with none of its effects. (The counts of the table, which R90 marks as derived, are not stated.) The illegal
words of families 0, 5 and 9, the fault record, and that the fault leaves every element but status as before the step, `pc`
included, are the spec's own choices (92_eei_decisions.md D16, D17, D4, D5; log entries 5 and 10). -/
def Obligations.IllegalWordsAreThoseListed : Prop :=
  ∀ w : Word,
    (decode w = .error (.illegalOpcode w) ↔ illegalByFamily w) ∧
    ∀ s : State, s.status = .running → s.pc.toNat < 0xFFE → illegalByFamily w →
      wordOfBytes (s.readMem s.pc.toNat) (s.readMem (s.pc.toNat + 1)) = w →
      step s = .next { s with status := .faulted { cause := .illegalOpcode, pc := s.pc, word := some w } }

/-- Seven words written out from the patterns of 30_encoding.md R84, one of each shape, and one word of no pattern, 0x5121,
which is refused: that 5XYN with N ≠ 0 is illegal is the spec's own choice (R89, 92_eei_decisions.md D17, log entry 10). -/
def Obligations.WrittenOutWordsDecode : Prop :=
  decode 0b0000000011101110#16 = .ok .ret ∧
  decode 0b0010001100010000#16 = .ok (.call 0x310) ∧
  decode 0b0110101001111111#16 = .ok (.ldImm 0xA 0x7F) ∧
  decode 0b1000000100100101#16 = .ok (.subReg 1 2) ∧
  decode 0b1101101111000101#16 = .ok (.drw 0xB 0xC 5) ∧
  decode 0b1110010110100001#16 = .ok (.sknp 5) ∧
  decode 0b1111001001100101#16 = .ok (.ldVxMem 2) ∧
  decode 0b0101000100100001#16 = .error (.illegalOpcode 0x5121)

/-! ## The step -/

/-- 40_step_cycle.md R100 to R103: a running step whose fetch is in bounds reads the big-endian word at `pc` from memory as
it stands, and when the word decodes it is exactly exec of the instruction on the state with `pc` advanced by 2. The bound
0xFFE, an odd `pc` and that the fetch sees memory as it stands are the spec's own choices (92_eei_decisions.md D28, D7, D33).
-/
def Obligations.StepRunsDecodedInstruction : Prop :=
  ∀ (s : State) (i : Instr), s.status = .running → s.pc.toNat < 0xFFE →
    decode (wordOfBytes (s.readMem s.pc.toNat) (s.readMem (s.pc.toNat + 1))) = .ok i → i.wellFormed = true →
    step s = exec i { s with pc := s.pc + 2 }

/-- 40_step_cycle.md R101, the bound: a running step at `pc` ≥ 0xFFE faults PcOutOfBounds, with no word and nothing but
status changed. The bound 0xFFE, the record's contents (`pc` and no word) and that nothing but status changes are the spec's
own choices (92_eei_decisions.md D28, D4, D5; log entries 5 and 10). -/
def Obligations.FetchPastTheLimitFaults : Prop :=
  ∀ s : State, s.status = .running → 0xFFE ≤ s.pc.toNat →
    step s = .next { s with status := .faulted { cause := .pcOutOfBounds, pc := s.pc, word := none } }

/-- 60_exceptions.md R231 and R234: a running step raises the first fault its state owes, with the faulting instruction's
address and the fetched word (none for the fetch's own fault), returns it, and changes nothing but status; a step that owes
none completes. The spec's own choices in it: the record and what a fault leaves (92_eei_decisions.md D4, D5), the index and
sprite bounds (D8, D14), the key-number fault (D12), the illegal words of families 0, 5 and 9 (D16, D17), the fetch bound
(D28). -/
def Obligations.FaultsAreExactlyThoseListed : Prop :=
  ∀ s : State, s.status = .running →
    (∀ c, s.faultDue = some c →
      ∃ t r, step s = .next t ∧ t = { s with status := .faulted r } ∧ t.stepResult = .fault r ∧
        r.cause = c ∧ r.pc = s.pc ∧
        r.word = (if c = .pcOutOfBounds then none
          else some (wordOfBytes (s.readMem s.pc.toNat) (s.readMem (s.pc.toNat + 1))))) ∧
    (s.faultDue = none → ∃ t, step s = .next t ∧ ∀ r, t.status ≠ .faulted r)

/-- The code column of 60_exceptions.md R231, the spec's own numbering (92_eei_decisions.md D3). -/
def Obligations.CausesHaveTheirCodes : Prop :=
  ∀ r : FaultRecord,
    (r.cause = .pcOutOfBounds ↔ r.code = 1) ∧ (r.cause = .illegalOpcode ↔ r.code = 2) ∧
    (r.cause = .stackOverflow ↔ r.code = 3) ∧ (r.cause = .stackUnderflow ↔ r.code = 4) ∧
    (r.cause = .indexOutOfBounds ↔ r.code = 5) ∧ (r.cause = .keyIndexOutOfRange ↔ r.code = 6)

/-! ## Control flow -/

/-- R122: JP NNN sets `pc` to NNN, zero-extended, and changes no other state element of the spec. -/
def Obligations.JumpSetsPc : Prop :=
  ∀ (s : State) (nnn : Addr12), ∃ t, exec (.jp nnn) s = .next t ∧ s.changesOnlyPc t (BitVec.ofNat 16 nnn.toNat)

/-- R124 to R127: each skip adds 2 to the advanced `pc` exactly when its condition holds (which the fetch put past the
skip, so that one word is passed over), and changes no other state element of the spec. -/
def Obligations.SkipsPassOverOneWord : Prop :=
  ∀ (s : State) (x y : Nibble) (nn : Byte),
    (∃ t, exec (.seImm x nn) s = .next t ∧
      s.changesOnlyPc t (if s.readV x = nn then s.pc + 2 else s.pc)) ∧
    (∃ t, exec (.sneImm x nn) s = .next t ∧
      s.changesOnlyPc t (if s.readV x = nn then s.pc else s.pc + 2)) ∧
    (∃ t, exec (.seReg x y) s = .next t ∧
      s.changesOnlyPc t (if s.readV x = s.readV y then s.pc + 2 else s.pc)) ∧
    (∃ t, exec (.sneReg x y) s = .next t ∧
      s.changesOnlyPc t (if s.readV x = s.readV y then s.pc else s.pc + 2))

/-- R129: BNNN jumps to NNN plus V0, or plus the register NNN's top nibble names, by the quirk; the sum is not masked to 12
bits (the spec's own choice, 92_eei_decisions.md D27). -/
def Obligations.JumpOffsetAddsTheChosenRegister : Prop :=
  ∀ (s : State) (nnn : Addr12), ∃ t, exec (.jpV0 nnn) s = .next t ∧
    s.changesOnlyPc t (BitVec.ofNat 16 (nnn.toNat +
      (if s.cfg.jumpOffsetUsesVx then (s.readV (BitVec.ofNat 4 (nnn.toNat / 256))).toNat else (s.readV 0).toNat)))

/-- R123: CALL pushes the advanced `pc` and jumps; every other stack entry is kept; on a full stack it faults. That the
pushed value is the address after the call is the spec's inference (R123's closing sentence, 91_not_in_source.md N34); the
record and what a fault leaves, and a stack that is not in memory, are its own choices (92_eei_decisions.md D4, D5, D18). -/
def Obligations.CallPushesReturnAddress : Prop :=
  ∀ (s : State) (nnn : Addr12),
    (s.sp.val < 16 → ∃ t, exec (.call nnn) s = .next t ∧
      t = { s with pc := t.pc, sp := t.sp, stack := t.stack, redraw := false } ∧
      t.pc.toNat = nnn.toNat ∧ t.sp.val = s.sp.val + 1 ∧
      (∀ j : Fin 16, t.stack[j] = if j.val = s.sp.val then s.pc else s.stack[j]) ∧
      ∀ a, t.readMem a = s.readMem a) ∧
    (s.sp.val = 16 → exec (.call nnn) s = .next (s.faultedBy .stackOverflow (0x2000 + nnn.toNat)))

/-- R121: RET pops the last entry into `pc` and keeps every stack entry's value; on an empty stack it faults
StackUnderflow (the record and what a fault leaves: the spec's own choices, 92_eei_decisions.md D4, D5). -/
def Obligations.ReturnPopsTheStack : Prop :=
  ∀ s : State,
    (∀ j : Fin 16, s.sp.val = j.val + 1 → ∃ t, exec .ret s = .next t ∧
      t = { s with pc := t.pc, sp := t.sp, redraw := false } ∧
      t.pc = s.stack[j] ∧ t.sp.val = j.val ∧ ∀ a, t.readMem a = s.readMem a) ∧
    (s.sp.val = 0 → exec .ret s = .next (s.faultedBy .stackUnderflow 0x00EE))

/-- R121 with R123: a RET reached with the stack as the CALL left it comes back to the instruction after the CALL, with the
stack as deep as before it, whatever else has happened in between. -/
def Obligations.ReturnUndoesCall : Prop :=
  ∀ (s : State) (nnn : Addr12), s.sp.val < 16 →
    ∃ t, exec (.call nnn) s = .next t ∧
      ∀ u : State, u.sp = t.sp → u.stack = t.stack →
        ∃ w, exec .ret u = .next w ∧ w.pc = s.pc ∧ w.sp = s.sp ∧ w.status = u.status

/-- The stack discipline of 95_test_vectors.md W8 and P4, in steps of the machine: from a running machine with d stack
entries, where memory holds a chain of 16 - d calls from `pc` on and one more call at the last target, 16 - d steps succeed,
fill the stack with the address after each call (the entries from before are kept), and change nothing but `pc`, `sp` and the
stack; the next step faults StackOverflow at its own address, and only the status changes. The fault record's contents, what
the fault leaves and a stack that is not in memory are the spec's own choices (92_eei_decisions.md D4, D5, D18). -/
def Obligations.SixteenNestedCallsThenOverflow : Prop :=
  ∀ (s : State) (targets : List Addr12) (last : Addr12), s.status = .running → s.sp.val + targets.length = 16 →
    s.callChain s.pc (targets ++ [last]) = true →
    ∃ t, runOps (List.replicate targets.length .step) s = .next t ∧
      t = { s with pc := t.pc, sp := t.sp, stack := t.stack, redraw := t.redraw } ∧
      t.sp.val = 16 ∧
      (∀ j : Fin 16, j.val < s.sp.val → t.stack[j] = s.stack[j]) ∧
      (∀ (j : Fin 16) (k : Nat) (h : k < targets.length), j.val = s.sp.val + k →
        t.stack[j] = (callSites s.pc targets)[k]'(by simp [callSites]; omega) + 2) ∧
      (callSites s.pc targets).getLast? = some t.pc ∧
      step t = .next { t with
        status := .faulted
          { cause := .stackOverflow, pc := t.pc, word := some (BitVec.ofNat 16 (0x2000 + last.toNat)) } }

/-! ## Registers and arithmetic -/

/-- R142 and R150: LD VX, NN and LD VX, VY write VX and no other state element of the spec. -/
def Obligations.LoadWritesOneRegister : Prop :=
  ∀ (s : State) (x y : Nibble) (nn : Byte),
    (∃ t, exec (.ldImm x nn) s = .next t ∧ s.changesOnlyRegs t (fun k => if k = x then nn else s.readV k)) ∧
    (∃ t, exec (.ldReg x y) s = .next t ∧ s.changesOnlyRegs t (fun k => if k = x then s.readV y else s.readV k))

/-- R151 to R153: OR, AND and XOR write VX bit by bit and no other state element; VF is not reset, which is the spec's own
choice (92_eei_decisions.md D31). -/
def Obligations.LogicWritesOneRegister : Prop :=
  ∀ (s : State) (x y : Nibble),
    (∃ t, exec (.orReg x y) s = .next t ∧
      (∀ j, (t.readV x).getLsbD j = ((s.readV x).getLsbD j || (s.readV y).getLsbD j)) ∧
      s.changesOnlyRegs t (fun k => if k = x then t.readV x else s.readV k)) ∧
    (∃ t, exec (.andReg x y) s = .next t ∧
      (∀ j, (t.readV x).getLsbD j = ((s.readV x).getLsbD j && (s.readV y).getLsbD j)) ∧
      s.changesOnlyRegs t (fun k => if k = x then t.readV x else s.readV k)) ∧
    (∃ t, exec (.xorReg x y) s = .next t ∧
      (∀ j, (t.readV x).getLsbD j = ((s.readV x).getLsbD j ^^ (s.readV y).getLsbD j)) ∧
      s.changesOnlyRegs t (fun k => if k = x then t.readV x else s.readV k))

/-- R143: ADD VX, NN wraps modulo 256 and writes no flag. -/
def Obligations.AddImmediateWritesNoFlag : Prop :=
  ∀ (s : State) (x : Nibble) (nn : Byte), ∃ t, exec (.addImm x nn) s = .next t ∧
    s.changesOnlyRegs t
      (fun k => if k = x then BitVec.ofNat 8 (((s.readV x).toNat + nn.toNat) % 256) else s.readV k)

/-- R154: ADD VX, VY holds the sum modulo 256, then VF the carry, written last. -/
def Obligations.AddSetsCarryLast : Prop :=
  ∀ (s : State) (x y : Nibble), ∃ t, exec (.addReg x y) s = .next t ∧
    s.changesOnlyRegs t (fun k =>
      if k = 15 then flagByte ((s.readV x).toNat + (s.readV y).toNat > 255)
      else if k = x then BitVec.ofNat 8 (((s.readV x).toNat + (s.readV y).toNat) % 256)
      else s.readV k)

/-- R155: SUB VX, VY holds the difference modulo 256, then VF whether there was no borrow, written last. -/
def Obligations.SubtractSetsNoBorrowLast : Prop :=
  ∀ (s : State) (x y : Nibble), ∃ t, exec (.subReg x y) s = .next t ∧
    s.changesOnlyRegs t (fun k =>
      if k = 15 then flagByte ((s.readV x).toNat ≥ (s.readV y).toNat)
      else if k = x then BitVec.ofInt 8 (((s.readV x).toNat : Int) - ((s.readV y).toNat : Int))
      else s.readV k)

/-- R156: SUBN VX, VY is the difference the other way round. That no borrow means VY ≥ VX is the spec's inference (R156's
closing sentence). -/
def Obligations.SubtractReversedSetsNoBorrowLast : Prop :=
  ∀ (s : State) (x y : Nibble), ∃ t, exec (.subn x y) s = .next t ∧
    s.changesOnlyRegs t (fun k =>
      if k = 15 then flagByte ((s.readV y).toNat ≥ (s.readV x).toNat)
      else if k = x then BitVec.ofInt 8 (((s.readV y).toNat : Int) - ((s.readV x).toNat : Int))
      else s.readV k)

/-- R158 and R159: the shifts take VY or VX by the quirk, write VX, then VF the bit shifted out. That VF is written last, so
that for X = 15 it ends as the flag, is the spec's own resolution: the source's rows give VF first (90_conflicts.md C2, R141,
92_eei_decisions.md D32). -/
def Obligations.ShiftsSetTheBitShiftedOut : Prop :=
  ∀ (s : State) (x y : Nibble) (src : Byte),
    src = (if s.cfg.shiftUsesVy then s.readV y else s.readV x) →
    (∃ t, exec (.shr x y) s = .next t ∧
      s.changesOnlyRegs t (fun k =>
        if k = 15 then flagByte (src.toNat % 2 = 1)
        else if k = x then BitVec.ofNat 8 (src.toNat / 2) else s.readV k)) ∧
    (∃ t, exec (.shl x y) s = .next t ∧
      s.changesOnlyRegs t (fun k =>
        if k = 15 then flagByte (src.toNat / 128 = 1)
        else if k = x then BitVec.ofNat 8 (src.toNat * 2 % 256) else s.readV k))

/-- R162: RND VX, NN writes a fresh free byte masked by NN, so that no bit outside NN is set; the draw is counted (log entry
3: the count is the model's own), and nothing else changes. -/
def Obligations.RandomByteIsMasked : Prop :=
  ∀ (s : State) (x : Nibble) (nn : Byte), ∃ t, exec (.rnd x nn) s = .next t ∧
    t = { s with v := t.v, draws := s.draws + 1, redraw := false } ∧
    (∀ k, t.readV k = if k = x then Config.randomByte s.draws &&& nn else s.readV k) ∧
    t.readV x &&& ~~~nn = 0 ∧ ∀ a, t.readMem a = s.readMem a

/-! ## The index register and memory -/

/-- R170: LD I, NNN writes I, zero-extended, and no other state element of the spec. -/
def Obligations.LoadIndexWritesI : Prop :=
  ∀ (s : State) (nnn : Addr12), ∃ t, exec (.ldI nnn) s = .next t ∧
    t = { s with idx := t.idx, redraw := t.redraw } ∧ t.idx.toNat = nnn.toNat ∧ ∀ a, t.readMem a = s.readMem a

/-- R171: ADD I, VX adds modulo 65536 and sets VF to whether the new I is above 0xFFF, last. The wrap and the 0 case are the
spec's own choices (92_eei_decisions.md D9, D10). -/
def Obligations.AddToIndexSetsFlag : Prop :=
  ∀ (s : State) (x : Nibble), ∃ t, exec (.addIVx x) s = .next t ∧
    t = { s with idx := t.idx, v := t.v, redraw := false } ∧
    t.idx.toNat = (s.idx.toNat + (s.readV x).toNat) % 65536 ∧
    (∀ k, t.readV k = if k = 15 then flagByte (t.idx.toNat > 0xFFF) else s.readV k) ∧
    ∀ a, t.readMem a = s.readMem a

/-- R172: LD F, VX sets I to 0x050 + 5 VX, unmasked (the spec's own choice, 92_eei_decisions.md D11), and changes nothing
else. -/
def Obligations.FontAddressOfADigit : Prop :=
  ∀ (s : State) (x : Nibble), ∃ t, exec (.ldFVx x) s = .next t ∧
    t = { s with idx := t.idx, redraw := false } ∧ t.idx.toNat = 0x050 + (s.readV x).toNat * 5 ∧
    ∀ a, t.readMem a = s.readMem a

/-- R173: LD B, VX stores the three decimal digits of VX at I, I + 1 and I + 2, hundreds first, and writes nothing else;
when I + 2 is above 0xFFF it faults IndexOutOfBounds and writes nothing. The fault and the store below 0x0A0 are the spec's own
choices (92_eei_decisions.md D4, D5, D8, D19). -/
def Obligations.BcdStoresThreeDigits : Prop :=
  ∀ (s : State) (x : Nibble),
    (s.idx.toNat + 2 ≤ 0xFFF → ∃ t, exec (.ldBVx x) s = .next t ∧
      t = { s with mem := t.mem, redraw := false } ∧
      (t.readMem s.idx.toNat).toNat = (s.readV x).toNat / 100 ∧
      (t.readMem (s.idx.toNat + 1)).toNat = (s.readV x).toNat / 10 % 10 ∧
      (t.readMem (s.idx.toNat + 2)).toNat = (s.readV x).toNat % 10 ∧
      ∀ a, a < s.idx.toNat ∨ s.idx.toNat + 2 < a → t.readMem a = s.readMem a) ∧
    (0xFFF < s.idx.toNat + 2 →
      exec (.ldBVx x) s = .next (s.faultedBy .indexOutOfBounds (0xF033 + x.toNat * 256)))

/-- R177: LD [I], VX stores V0..VX at I..I+X and writes no other byte; I becomes I + X + 1 (modulo 65536) under the quirk and
is kept otherwise; when I + X is above 0xFFF it faults IndexOutOfBounds and writes nothing. The fault, the wrap of I and the
store below 0x0A0 are the spec's own choices (92_eei_decisions.md D4, D5, D8, D9, D19). -/
def Obligations.StoreBlockWritesRegisters : Prop :=
  ∀ (s : State) (x : Nibble),
    (s.idx.toNat + x.toNat ≤ 0xFFF → ∃ t, exec (.ldMemVx x) s = .next t ∧
      t = { s with mem := t.mem, idx := t.idx, redraw := false } ∧
      t.idx.toNat = (if s.cfg.loadStoreIncrementsI then (s.idx.toNat + x.toNat + 1) % 65536 else s.idx.toNat) ∧
      (∀ k : Nibble, k.toNat ≤ x.toNat → t.readMem (s.idx.toNat + k.toNat) = s.readV k) ∧
      ∀ a, a < s.idx.toNat ∨ s.idx.toNat + x.toNat < a → t.readMem a = s.readMem a) ∧
    (0xFFF < s.idx.toNat + x.toNat →
      exec (.ldMemVx x) s = .next (s.faultedBy .indexOutOfBounds (0xF055 + x.toNat * 256)))

/-- R178: LD VX, [I] loads V0..VX from I..I+X and keeps the registers above; I as for the store; when I + X is above 0xFFF it
faults IndexOutOfBounds. That the load mirrors the store so is the spec's inference (R178's closing sentence); the fault and
the wrap of I are its own choices (92_eei_decisions.md D4, D5, D8, D9). -/
def Obligations.LoadBlockReadsRegisters : Prop :=
  ∀ (s : State) (x : Nibble),
    (s.idx.toNat + x.toNat ≤ 0xFFF → ∃ t, exec (.ldVxMem x) s = .next t ∧
      t = { s with v := t.v, idx := t.idx, redraw := false } ∧
      t.idx.toNat = (if s.cfg.loadStoreIncrementsI then (s.idx.toNat + x.toNat + 1) % 65536 else s.idx.toNat) ∧
      (∀ k : Nibble, t.readV k =
        if k.toNat ≤ x.toNat then s.readMem (s.idx.toNat + k.toNat) else s.readV k) ∧
      ∀ a, t.readMem a = s.readMem a) ∧
    (0xFFF < s.idx.toNat + x.toNat →
      exec (.ldVxMem x) s = .next (s.faultedBy .indexOutOfBounds (0xF065 + x.toNat * 256)))

/-- "load | inverse of store" (43_index_memory.md R178): a block stored by FX55 and loaded by FX65 at the same I comes back,
whatever has happened in between to anything but memory. -/
def Obligations.LoadAfterStoreRestoresBlock : Prop :=
  ∀ (s : State) (x : Nibble), s.idx.toNat + x.toNat ≤ 0xFFF →
    ∃ t, exec (.ldMemVx x) s = .next t ∧
      ∀ u : State, u.mem = t.mem → u.cfg = t.cfg → u.idx = s.idx →
        ∃ w, exec (.ldVxMem x) u = .next w ∧ ∀ k : Nibble, k.toNat ≤ x.toNat → w.readV k = s.readV k

/-! ## The display -/

/-- R191: CLS turns every pixel off, keeps VF and everything else, and asks for a redraw (for an already clear display too,
the spec's own choice, 92_eei_decisions.md D15). -/
def Obligations.ClearTurnsEveryPixelOff : Prop :=
  ∀ s : State, ∃ t, exec .cls s = .next t ∧ t = { s with disp := t.disp, redraw := true } ∧
    (∀ x y, x < 64 → y < 32 → t.disp.pix x y = false) ∧ ∀ a, t.readMem a = s.readMem a

/-- 44_display.md R192 to R197, pixel by pixel: DRW starts at (VX mod 64, VY mod 32), XORs every pixel of the grid with the
sprite's bit there, clips what falls outside, and sets VF to whether some set bit fell on a pixel of the grid that was on.
The bounds rule and the redraw of every DRW are the spec's own choices (92_eei_decisions.md D14, D15), the bit order its
inference (R195). -/
def Obligations.DrawXorsThePixelsUnderTheSprite : Prop :=
  ∀ (s : State) (x y n : Nibble) (x0 y0 : Nat), n.toNat = 0 ∨ s.idx.toNat + n.toNat ≤ 0x1000 →
    x0 = (s.readV x).toNat % 64 → y0 = (s.readV y).toNat % 32 →
    ∃ t, exec (.drw x y n) s = .next t ∧
      t = { s with disp := t.disp, v := t.v, redraw := true } ∧
      (∀ a b, a < 64 → b < 32 → t.disp.pix a b = (s.disp.pix a b ^^ s.spriteBit x0 y0 n.toNat a b)) ∧
      (∀ k, k ≠ 15 → t.readV k = s.readV k) ∧
      ((∃ a b, a < 64 ∧ b < 32 ∧ s.disp.pix a b = true ∧ s.spriteBit x0 y0 n.toNat a b = true) →
        t.readV 15 = 1) ∧
      ((∀ a b, a < 64 → b < 32 → s.spriteBit x0 y0 n.toNat a b = true → s.disp.pix a b = false) →
        t.readV 15 = 0) ∧
      ∀ a, t.readMem a = s.readMem a

/-- R192's fault: a sprite any of whose rows lies above 0xFFF faults IndexOutOfBounds, even if those rows would be clipped
(the spec's own choice, 92_eei_decisions.md D14), and changes no pixel and no register. The bound on I, the fault record and
that the fault leaves every element but status as before the step, `pc` included, are the spec's own choices too
(92_eei_decisions.md D8, D4, D5; log entries 5 and 10). -/
def Obligations.DrawPastMemoryFaults : Prop :=
  ∀ (s : State) (x y n : Nibble), n.toNat ≠ 0 → 0x1000 < s.idx.toNat + n.toNat →
    exec (.drw x y n) s =
      .next (s.faultedBy .indexOutOfBounds (0xD000 + x.toNat * 256 + y.toNat * 16 + n.toNat))

/-- The double draw (R192's corner case, which R192 marks as derived from R196 and R197; 95_test_vectors.md W6): drawing the
same sprite at the same place twice restores every pixel, and the second draw sets VF exactly when some set bit of the sprite
falls on a pixel of the grid that was off before the first. The same place means that the first draw's VF write leaves both
coordinates as they were. The bounds under which a draw completes are the spec's own choice (92_eei_decisions.md D14). -/
def Obligations.DrawTwiceRestoresTheDisplay : Prop :=
  ∀ (s : State) (x y n : Nibble) (p : Word), n.toNat = 0 ∨ s.idx.toNat + n.toNat ≤ 0x1000 →
    ∃ t, exec (.drw x y n) s = .next t ∧
      (t.readV x = s.readV x → t.readV y = s.readV y →
        ∃ u, exec (.drw x y n) { t with pc := p } = .next u ∧ u.disp = s.disp ∧
          (u.readV 15 = 1 ↔ ∃ a b, a < 64 ∧ b < 32 ∧ s.disp.pix a b = false ∧
            s.spriteBit ((s.readV x).toNat % 64) ((s.readV y).toNat % 32) n.toNat a b = true) ∧
          (u.readV 15 = 0 ∨ u.readV 15 = 1))

/-- 10_state.md R30: element y * 64 + x of the framebuffer output is pixel (x, y). The formula is the spec's own choice
(92_eei_decisions.md D35). -/
def Obligations.FramebufferIsRowMajor : Prop :=
  ∀ (s : State) (x : Fin 64) (y : Fin 32),
    s.framebuffer[y.val * 64 + x.val]'(by omega) = s.disp.pix x.val y.val

/-! ## Timers and keys -/

/-- R210 to R212: FX07 copies DT into VX, FX15 VX into DT, FX18 VX into ST, and each changes no other state element of the
spec. -/
def Obligations.TimerCopies : Prop :=
  ∀ (s : State) (x : Nibble),
    (∃ t, exec (.ldVxDt x) s = .next t ∧ s.changesOnlyRegs t (fun k => if k = x then s.dt else s.readV k)) ∧
    (∃ t, exec (.ldDtVx x) s = .next t ∧ t = { s with dt := s.readV x, redraw := t.redraw } ∧
      ∀ a, t.readMem a = s.readMem a) ∧
    (∃ t, exec (.ldStVx x) s = .next t ∧ t = { s with st := s.readV x, redraw := t.redraw } ∧
      ∀ a, t.readMem a = s.readMem a)

/-- R215: a tick decrements each timer that is not 0, in Running and AwaitingKey alike, changes nothing else, and does
nothing to a faulted machine (the statuses are the spec's own choice, 92_eei_decisions.md D34 and D6). -/
def Obligations.TickDecrementsBothTimers : Prop :=
  ∀ s : State,
    ((∀ r, s.status ≠ .faulted r) →
      s.tickTimers = { s with dt := s.tickTimers.dt, st := s.tickTimers.st } ∧
      s.tickTimers.dt.toNat = s.dt.toNat - 1 ∧ s.tickTimers.st.toNat = s.st.toNat - 1) ∧
    (∀ r, s.status = .faulted r → s.tickTimers = s)

/-- R213 and R214 with R220: SKP skips when the key VX names is pressed, SKNP when it is not; a VX above 15 faults
KeyIndexOutOfRange, which is the spec's own choice (92_eei_decisions.md D12), as are the fault record and that the fault
leaves every element but status as before the step, `pc` included (D4, D5; log entries 5 and 10). -/
def Obligations.KeySkipsReadTheKeyState : Prop :=
  ∀ (s : State) (x : Nibble),
    (∀ h : (s.readV x).toNat < 16,
      (∃ t, exec (.skp x) s = .next t ∧ s.changesOnlyPc t
        (if s.key[(s.readV x).toNat]'h = true then s.pc + 2 else s.pc)) ∧
      (∃ t, exec (.sknp x) s = .next t ∧ s.changesOnlyPc t
        (if s.key[(s.readV x).toNat]'h = true then s.pc else s.pc + 2))) ∧
    (15 < (s.readV x).toNat →
      exec (.skp x) s = .next (s.faultedBy .keyIndexOutOfRange (0xE09E + x.toNat * 256)) ∧
      exec (.sknp x) s = .next (s.faultedBy .keyIndexOutOfRange (0xE0A1 + x.toNat * 256)))

/-- R217: the step that executes FX0A puts `pc` back on it and waits with an empty latch; VX is not written yet (the
mechanism is the spec's own choice, 92_eei_decisions.md D13). -/
def Obligations.WaitForKeyStartsTheWait : Prop :=
  ∀ (s : State) (x : Nibble),
    exec (.ldVxK x) s =
      .next { s with pc := s.pc - 2, status := .awaitingKey x none, redraw := false }

/-- R106 and R219: a waiting step fetches nothing; with an empty latch it changes nothing and returns Ok(0); with key k
latched it writes k into VX, moves past the FX0A and runs again (the mechanism is the spec's own choice,
92_eei_decisions.md D13). -/
def Obligations.WaitingStepCompletesOnTheLatch : Prop :=
  ∀ (s : State) (x : Nibble),
    (s.status = .awaitingKey x none →
      step s = .next { s with redraw := false }) ∧
    ∀ k : Fin 16, s.status = .awaitingKey x (some k) →
      ∃ t, step s = .next t ∧
        t = { s with v := t.v, pc := s.pc + 2, status := .running, redraw := false } ∧
        t.stepResult = .ok false ∧
        ∀ r, (t.readV r).toNat = if r = x then k.val else (s.readV r).toNat

/-- R216 and R218: set_keys replaces the key state of a machine that is not faulted; while a wait has an empty latch it
latches the least key that is newly pressed, and nothing when there is none; any other status is kept; nothing else changes;
a faulted machine it leaves as it is. The edge and the least key, what it does while no key is waited for, and that a faulted
machine is left alone are the spec's own choices (92_eei_decisions.md D13, D29, D6; log entry 10). -/
def Obligations.SetKeysLatchesTheLeastNewPress : Prop :=
  ∀ (s : State) (k : Keys),
    ((∀ r, s.status ≠ .faulted r) → s.setKeys k = { s with key := k, status := (s.setKeys k).status }) ∧
    (∀ r, s.status = .faulted r → s.setKeys k = s) ∧
    (∀ x, s.status = .awaitingKey x none →
      (∀ i : Fin 16, k[i] = true → s.key[i] = false → (∀ j : Fin 16, j < i → ¬(k[j] = true ∧ s.key[j] = false)) →
        (s.setKeys k).status = .awaitingKey x (some i)) ∧
      ((∀ i : Fin 16, ¬(k[i] = true ∧ s.key[i] = false)) → (s.setKeys k).status = .awaitingKey x none)) ∧
    ((∀ x, s.status ≠ .awaitingKey x none) → (s.setKeys k).status = s.status)

/-- The whole of FX0A (95_test_vectors.md P5), which rests on the spec's own choice of the mechanism, the press edge, the
least new key and the completion by the next step (92_eei_decisions.md D13, log entry 10: unsafe; that ticks run during the
wait is D34): from a running machine with FX0A at `pc`, one step, any number of wait steps with any number of ticks among
them, a set_keys whose least new press is `i`, and one more step leave VX holding `i`, `pc` past the FX0A and the machine
running. -/
def Obligations.KeyWaitEndsWithTheKey : Prop :=
  ∀ (s : State) (x : Nibble) (k : Keys) (i : Fin 16) (waits : List BlockOp),
    s.status = .running → s.pc.toNat < 0xFFE →
    decode (wordOfBytes (s.readMem s.pc.toNat) (s.readMem (s.pc.toNat + 1))) = .ok (.ldVxK x) →
    (∀ op ∈ waits, op = .step ∨ op = .tickTimers) →
    k[i] = true → s.key[i] = false → (∀ j : Fin 16, j < i → ¬(k[j] = true ∧ s.key[j] = false)) →
    ∃ t, runOps (.step :: waits ++ [.setKeys k, .step]) s = .next t ∧
      t = { s with v := t.v, pc := s.pc + 2, key := k, dt := t.dt, st := t.st, redraw := false } ∧
      ∀ r, (t.readV r).toNat = if r = x then i.val else (s.readV r).toNat

/-! ## Faults -/

/-- 40_step_cycle.md R105, 60_exceptions.md R232 and R233: a running step that ends faulted has changed nothing but status
(no partial write survives; the spec's own reading, 92_eei_decisions.md D5), its record's `pc` is the instruction's address
(the record: D4), and setting the status back and stepping again takes the very same fault. -/
def Obligations.FaultingStepChangesOnlyStatus : Prop :=
  ∀ (s t : State) (r : FaultRecord), s.status = .running → step s = .next t → t.status = .faulted r →
    t = { s with status := .faulted r } ∧ r.pc = s.pc ∧
    step { t with status := .running } = .next t

/-- 40_step_cycle.md R108 and 60_exceptions.md R236: a faulted machine is frozen. No sequence of operations changes anything,
a load is rejected, and a step returns the same record (the spec's own choice, 92_eei_decisions.md D6). -/
def Obligations.FaultedMachineIsFrozen : Prop :=
  ∀ (s : State) (r : FaultRecord), s.status = .faulted r →
    (∀ ops : List BlockOp, runOps ops s = .next s) ∧
    (∀ bytes, (s.load bytes).1 = .machineFaulted) ∧ s.stepResult = .fault r

/-- Every step answers a next state: no state, word or operand stops the model (30_encoding.md R95: decoding is total). (That
a fault is a next state is the model's convention, log entry 5.) -/
def Obligations.EveryStepAnswersANextState : Prop :=
  ∀ s : State, (∃ t, step s = .next t) ∧ ∀ ops : List BlockOp, ∃ t, runOps ops s = .next t

/-! ## Invariants and whole-machine rules -/

/-- Every step keeps the invariant: memory in its canonical form (the model's own, log entry 12) with no address outside
0x000..0xFFF, `pc` ≤ 0x10FE and stack entries ≤ 0xFFF (10_state.md R23), the `pc` of a waiting machine below 0xFFE, and a fault
record that agrees with its state (the record and what a fault leaves are the spec's own choices, 92_eei_decisions.md D4 and
D5). -/
def Obligations.StepKeepsTheInvariant : Prop :=
  ∀ s t : State, s.Inv → step s = .next t → t.Inv

/-- Every interleaving of the caller's operations (40_step_cycle.md R107, 92_eei_decisions.md D2) keeps the invariant of
`Obligations.StepKeepsTheInvariant`. -/
def Obligations.EveryInterleavingKeepsTheInvariant : Prop :=
  ∀ (s t : State) (ops : List BlockOp), s.Inv → runOps ops s = .next t → t.Inv

/-- A constructed block meets the invariant, whatever its configuration. -/
def Obligations.ConstructMeetsTheInvariant : Prop :=
  (∀ cfg, (State.construct cfg).Inv) ∧ State.reset.Inv

/-- 70_reset_and_hazards.md R260: `construct` leaves every element at its reset value (that the status is Running is the
spec's own choice, 92_eei_decisions.md D6). -/
def Obligations.ConstructLeavesTheResetValues : Prop :=
  ∀ (cfg : Config) (s : State), s = State.construct cfg →
    s.cfg = cfg ∧
    (∀ j : Fin 80, s.readMem (0x050 + j.val) = cfg.font[j]) ∧
    (∀ a, a < 0x050 ∨ 0x09F < a → s.readMem a = 0) ∧
    (∀ x, s.readV x = 0) ∧ s.idx = 0 ∧ s.pc = 0x200 ∧ s.sp.val = 0 ∧ (∀ j : Fin 16, s.stack[j] = 0) ∧
    s.dt = 0 ∧ s.st = 0 ∧ (∀ x y, s.disp.pix x y = false) ∧ (∀ j : Fin 16, s.key[j] = false) ∧
    s.status = .running

/-- 10_state.md R32 and 70_reset_and_hazards.md R262: nothing changes the configuration during a run, in any interleaving. -/
def Obligations.ConfigurationNeverChanges : Prop :=
  ∀ (s t : State) (ops : List BlockOp), runOps ops s = .next t → t.cfg = s.cfg

/-- 40_step_cycle.md R110: a step changes DT only when it runs FX15 and ST only when it runs FX18, and then to VX; no other
operation but the tick changes them; and a step does the same whatever the instruction clock rate. -/
def Obligations.StepsNeverAdvanceTheTimers : Prop :=
  (∀ (s : State) (k : Keys) (bytes : List Byte),
    (s.setKeys k).dt = s.dt ∧ (s.setKeys k).st = s.st ∧
    (s.load bytes).2.dt = s.dt ∧ (s.load bytes).2.st = s.st) ∧
  ∀ s t : State, step s = .next t →
    (t.dt = s.dt ∨ ∃ x, s.status = .running ∧ decode s.fetchWord = .ok (.ldDtVx x) ∧ t.dt = s.readV x) ∧
    (t.st = s.st ∨ ∃ x, s.status = .running ∧ decode s.fetchWord = .ok (.ldStVx x) ∧ t.st = s.readV x) ∧
    ∀ hz, step { s with cfg := { s.cfg with instrClockHz := hz } } =
      .next { t with cfg := { t.cfg with instrClockHz := hz } }

/-- 40_step_cycle.md R104 and 44_display.md R190: a step that does not fault returns redraw 1 exactly when it ran 00E0 or
DXYN (for every one of them, the spec's own choice, 92_eei_decisions.md D15), and a step that returns 0 leaves the display
as it was. -/
def Obligations.RedrawExactlyWhenTheDisplayIsWritten : Prop :=
  ∀ (s t : State) (b : Bool), step s = .next t → t.stepResult = .ok b →
    (b = true ↔ s.status = .running ∧
      (decode s.fetchWord = .ok .cls ∨ ∃ x y n, decode s.fetchWord = .ok (.drw x y n))) ∧
    (b = false → t.disp = s.disp)

/-- Who writes what (10_state.md R20, R22, R25 to R28, R30, R31, R35, R36; 20_memory.md R51; 40_step_cycle.md R110): over all
instructions, every element of the spec's state is kept but by the instructions the spec names for it: the configuration, the
keys, memory, the stack and `sp`, `I`, DT, ST, the display, the status, each general register, and `pc` (which holds the
advanced value, or the instruction's own address when it faults). That the logical operations keep VF is the spec's own
choice (92_eei_decisions.md D31), as is what a fault leaves (D5). The last clause is about the model's own field `draws` (log
entry 3). -/
def Obligations.EachElementHasItsWriters : Prop :=
  ∀ (i : Instr) (s t : State), exec i s = .next t →
    t.cfg = s.cfg ∧ t.key = s.key ∧
    ((∀ x, i ≠ .ldBVx x ∧ i ≠ .ldMemVx x) → ∀ a, t.readMem a = s.readMem a) ∧
    ((∀ nnn, i ≠ .call nnn) → t.stack = s.stack ∧ (i ≠ .ret → t.sp = s.sp)) ∧
    ((∀ nnn x, i ≠ .ldI nnn ∧ i ≠ .addIVx x ∧ i ≠ .ldFVx x ∧ i ≠ .ldMemVx x ∧ i ≠ .ldVxMem x) → t.idx = s.idx) ∧
    ((∀ x, i ≠ .ldDtVx x) → t.dt = s.dt) ∧ ((∀ x, i ≠ .ldStVx x) → t.st = s.st) ∧
    ((∀ x y n, i ≠ .cls ∧ i ≠ .drw x y n) → t.disp = s.disp) ∧
    ((∀ x, i ≠ .ldVxK x) → t.status = s.status ∨ ∃ r, t.status = .faulted r) ∧
    (∀ k, ¬writesReg k i → t.readV k = s.readV k) ∧
    (¬setsPc i → t.pc = s.pc ∨ ((∃ r, t.status = .faulted r) ∧ t.pc = s.pc - 2)) ∧
    ((∀ x nn, i ≠ .rnd x nn) → t.draws = s.draws)

/-- 10_state.md R28, "no instruction reads it": two states that differ only in ST step to states that differ only in ST. -/
def Obligations.NoInstructionReadsTheSoundTimer : Prop :=
  ∀ (s t : State) (b : Byte), step s = .next t → ∃ c, step { s with st := b } = .next { t with st := c }

/-! ## Program load -/

/-- 70_reset_and_hazards.md R263: a load of at most 3584 bytes into a machine that is not faulted copies them verbatim from
0x200 up and changes nothing else, at any time (repeated and late loads, and that only a faulted machine refuses one, are the
spec's own choices, 92_eei_decisions.md D20 and D6). -/
def Obligations.LoadCopiesTheProgram : Prop :=
  ∀ (s : State) (bytes : List Byte), (∀ r, s.status ≠ .faulted r) → bytes.length ≤ 3584 →
    (s.load bytes).1 = .loaded ∧
    (s.load bytes).2 = { s with mem := (s.load bytes).2.mem } ∧
    (∀ (j : Nat) (h : j < bytes.length), (s.load bytes).2.readMem (0x200 + j) = bytes[j]) ∧
    ∀ a, a < 0x200 ∨ 0x200 + bytes.length ≤ a → (s.load bytes).2.readMem a = s.readMem a

/-- 70_reset_and_hazards.md R264: a program longer than 3584 bytes is rejected whole; no state changes, and the machine is
not faulted by it. -/
def Obligations.OversizeLoadIsRejected : Prop :=
  ∀ (s : State) (bytes : List Byte), (∀ r, s.status ≠ .faulted r) → 3584 < bytes.length →
    s.load bytes = (.programTooLarge, s)
end

