-- ==== Sys2Proof/Laws/Display.lean ====
section
/-! SUPPORT. The laws of the compositor's steps: a pixel after one pixel is written, and after one row is plotted. -/

namespace Sys2Proof.Machine

/-- A pixel of the cleared display is off. -/
@[simp] theorem Display.pix_clear (x y : Nat) : Display.clear.pix x y = false := by
  simp [Display.pix, Display.clear]

/-- A pixel after one pixel of the grid is written. -/
theorem Display.pix_setPix (d : Display) {x y : Nat} (a b : Nat) (bit : Bool) (hx : x < 64) (hy : y < 32) :
    (d.setPix x y bit).pix a b = if a = x ∧ b = y then bit else d.pix a b := by
  simp only [Display.pix, Display.setPix, hx, hy, dite_true]
  by_cases hb : b < 32
  · by_cases ha : a < 64
    · simp only [hb, ha, dite_true, Vector.getElem_set]
      by_cases h1 : y = b
      · subst h1
        by_cases h2 : x = a
        · subst h2; simp
        · simp [h2, Ne.symm h2]
      · simp [h1, Ne.symm h1]
    · simp only [ha, dite_false, dite_eq_ite, ite_self]
      rw [if_neg (by omega)]
  · simp only [hb, dite_false]
    rw [if_neg (by omega)]

/-- Two displays with the same pixels are the same. -/
theorem Display.ext_pix {d e : Display} (h : ∀ x y, x < 64 → y < 32 → d.pix x y = e.pix x y) : d = e := by
  apply Vector.ext
  intro y hy
  apply Vector.ext
  intro x hx
  simpa [Display.pix, hx, hy] using h x y hx hy

/-- One sprite bit on one pixel: that pixel is XORed with the bit, and a collision is a set bit on a pixel that is on. -/
theorem plotBit_eq (bit : Bool) {x y : Nat} (r : Display × Bool) (hx : x < 64) (hy : y < 32) :
    (∀ a b, (plotBit bit x y r).1.pix a b = (r.1.pix a b ^^ (decide (a = x ∧ b = y) && bit))) ∧
    (plotBit bit x y r).2 = (r.2 || (bit && r.1.pix x y)) := by
  unfold plotBit
  cases bit with
  | false => simp
  | true =>
    by_cases hp : r.1.pix x y
    · simp only [hp, if_true]
      refine ⟨fun a b => ?_, by simp⟩
      rw [Display.pix_setPix _ _ _ _ hx hy]
      by_cases h : a = x ∧ b = y
      · obtain ⟨rfl, rfl⟩ := h; simp [hp]
      · simp [h]
    · simp only [hp, if_true]
      refine ⟨fun a b => ?_, by simp⟩
      simp only [Bool.false_eq_true, if_false]
      rw [Display.pix_setPix _ _ _ _ hx hy]
      by_cases h : a = x ∧ b = y
      · obtain ⟨rfl, rfl⟩ := h; simp [hp]
      · simp [h]

/-- A plotted sprite row: each pixel of the grid is XORed with the row's bit there, and a collision is a set bit on a pixel
of the grid that was on. Column `a` of the row that starts at `x` with `n` columns left is bit `n - 1 - (a - x)`. -/
theorem plotColumns_eq (row : Byte) {y : Nat} (hy : y < 32) (n x : Nat) (r : Display × Bool) :
    (∀ a b, a < 64 → (plotColumns row y n x r).1.pix a b =
      (r.1.pix a b ^^ (decide (b = y ∧ x ≤ a ∧ a < x + n) && row.getLsbD (n - 1 - (a - x))))) ∧
    ((plotColumns row y n x r).2 = true ↔ r.2 = true ∨
      ∃ a, a < 64 ∧ x ≤ a ∧ a < x + n ∧ row.getLsbD (n - 1 - (a - x)) = true ∧ r.1.pix a y = true) := by
  induction n generalizing x r with
  | zero =>
    simp only [plotColumns]
    refine ⟨fun a b _ => ?_, .inl, ?_⟩
    · rw [decide_eq_false (by omega)]
      simp
    · rintro (h | ⟨a, h1, h2, h3, -⟩)
      · exact h
      · omega
  | succ n ih =>
    simp only [plotColumns]
    by_cases hx : 64 ≤ x
    · rw [if_pos hx]
      refine ⟨fun a b ha => ?_, .inl, ?_⟩
      · rw [decide_eq_false (by omega)]
        simp
      · rintro (h | ⟨a, h1, h2, h3, -⟩)
        · exact h
        · omega
    · rw [if_neg hx]
      obtain ⟨p1, p2⟩ := plotBit_eq (row.getLsbD n) r (by omega : x < 64) hy
      obtain ⟨q1, q2⟩ := ih (x + 1) (plotBit (row.getLsbD n) x y r)
      refine ⟨fun a b ha => ?_, ?_⟩
      · rw [q1 a b ha, p1]
        by_cases h : b = y ∧ a = x
        · obtain ⟨rfl, rfl⟩ := h
          simp
        · by_cases h' : b = y ∧ x + 1 ≤ a ∧ a < x + 1 + n
          · have e : n + 1 - 1 - (a - x) = n - 1 - (a - (x + 1)) := by omega
            rw [e, decide_eq_true h', decide_eq_true (by omega : b = y ∧ x ≤ a ∧ a < x + (n + 1)),
              decide_eq_false (by omega : ¬(a = x ∧ b = y))]
            simp
          · rw [decide_eq_false h', decide_eq_false (by omega : ¬(b = y ∧ x ≤ a ∧ a < x + (n + 1))),
              decide_eq_false (by omega : ¬(a = x ∧ b = y))]
            simp
      · rw [q2, p2]
        simp only [p1]
        constructor
        · rintro (h | ⟨a, h1, h2, h3, h4, h5⟩)
          · simp only [Bool.or_eq_true, Bool.and_eq_true] at h
            rcases h with h | h
            · exact .inl h
            · exact .inr ⟨x, by omega, by omega, by omega, by simpa using h.1, h.2⟩
          · refine .inr ⟨a, h1, by omega, by omega, ?_, by simpa [show a ≠ x by omega] using h5⟩
            rw [← h4]
            congr 1
            omega
        · rintro (h | ⟨a, h1, h2, h3, h4, h5⟩)
          · simp [h]
          · by_cases hax : a = x
            · subst hax
              left
              simp at h4
              simp [h4, h5]
            · refine .inr ⟨a, h1, by omega, by omega, ?_, by simpa [hax] using h5⟩
              rw [← h4]
              congr 1
              omega

/-- The bit of a sprite's rows, started at (x0, y0), on screen position (a, b): column `a - x0` of row `b - y0`. -/
def rowsBit (rows : List Byte) (x0 y0 a b : Nat) : Bool :=
  decide (x0 ≤ a ∧ a < x0 + 8) && decide (y0 ≤ b ∧ b < y0 + rows.length) &&
    ((rows[b - y0]?).getD 0).getLsbD (7 - (a - x0))

theorem rowsBit_head (row : Byte) (rest : List Byte) (x0 y a : Nat) :
    rowsBit (row :: rest) x0 y a y = (decide (x0 ≤ a ∧ a < x0 + 8) && row.getLsbD (7 - (a - x0))) := by
  simp [rowsBit]

theorem rowsBit_tail (row : Byte) (rest : List Byte) (x0 y a b : Nat) (h : b ≠ y) :
    rowsBit (row :: rest) x0 y a b = rowsBit rest x0 (y + 1) a b := by
  unfold rowsBit
  by_cases h' : y + 1 ≤ b ∧ b < y + 1 + rest.length
  · have e : b - y = (b - (y + 1)) + 1 := by omega
    have h2 : y ≤ b ∧ b < y + (row :: rest).length := by simp only [List.length_cons]; omega
    rw [decide_eq_true h', decide_eq_true h2, e]
    simp
  · have h2 : ¬(y ≤ b ∧ b < y + (row :: rest).length) := by simp only [List.length_cons]; omega
    rw [decide_eq_false h', decide_eq_false h2]
    simp

theorem rowsBit_above (rows : List Byte) (x0 y a b : Nat) (h : b < y) : rowsBit rows x0 y a b = false := by
  unfold rowsBit
  rw [decide_eq_false (by omega : ¬(y ≤ b ∧ b < y + rows.length))]
  simp

/-- Plotted sprite rows: each pixel of the grid is XORed with the sprite's bit there, and a collision is a set bit on a
pixel of the grid that was on. -/
theorem plotRows_eq (x0 : Nat) (rows : List Byte) (y : Nat) (r : Display × Bool) :
    (∀ a b, a < 64 → b < 32 → (plotRows x0 rows y r).1.pix a b = (r.1.pix a b ^^ rowsBit rows x0 y a b)) ∧
    ((plotRows x0 rows y r).2 = true ↔ r.2 = true ∨
      ∃ a b, a < 64 ∧ b < 32 ∧ rowsBit rows x0 y a b = true ∧ r.1.pix a b = true) := by
  induction rows generalizing y r with
  | nil => simp [plotRows, rowsBit]
  | cons row rest ih =>
    simp only [plotRows]
    by_cases hy : 32 ≤ y
    · rw [if_pos hy]
      refine ⟨fun a b _ hb => ?_, .inl, ?_⟩
      · rw [rowsBit_above _ _ _ _ _ (by omega)]
        simp
      · rintro (h | ⟨a, b, h1, h2, h3, -⟩)
        · exact h
        · rw [rowsBit_above _ _ _ _ _ (by omega)] at h3
          cases h3
    · rw [if_neg hy]
      obtain ⟨p1, p2⟩ := plotColumns_eq row (by omega : y < 32) 8 x0 r
      obtain ⟨q1, q2⟩ := ih (y + 1) (plotColumns row y 8 x0 r)
      refine ⟨fun a b ha hb => ?_, ?_⟩
      · rw [q1 a b ha hb, p1 a b ha]
        by_cases h : b = y
        · subst h
          rw [rowsBit_above _ _ _ _ _ (by omega), rowsBit_head]
          simp
        · rw [rowsBit_tail _ _ _ _ _ _ h, decide_eq_false (by omega : ¬(b = y ∧ x0 ≤ a ∧ a < x0 + 8))]
          simp
      · rw [q2, p2]
        constructor
        · rintro ((h | ⟨a, h1, h2, h3, h4, h5⟩) | ⟨a, b, h1, h2, h3, h4⟩)
          · exact .inl h
          · exact .inr ⟨a, y, h1, by omega, by rw [rowsBit_head, decide_eq_true ⟨h2, h3⟩]; simpa using h4, h5⟩
          · have hby : b ≠ y := by
              rintro rfl
              rw [rowsBit_above _ _ _ _ _ (by omega)] at h3
              cases h3
            rw [p1 a b h1, decide_eq_false (by omega : ¬(b = y ∧ x0 ≤ a ∧ a < x0 + 8))] at h4
            exact .inr ⟨a, b, h1, h2, by rw [rowsBit_tail _ _ _ _ _ _ hby]; exact h3, by simpa using h4⟩
        · rintro (h | ⟨a, b, h1, h2, h3, h4⟩)
          · exact .inl (.inl h)
          · by_cases hby : b = y
            · subst hby
              rw [rowsBit_head] at h3
              simp only [Bool.and_eq_true, decide_eq_true_eq] at h3
              exact .inl (.inr ⟨a, h1, h3.1.1, h3.1.2, h3.2, h4⟩)
            · refine .inr ⟨a, b, h1, h2, by rw [← rowsBit_tail _ _ _ _ _ _ hby]; exact h3, ?_⟩
              rw [p1 a b h1, decide_eq_false (by omega : ¬(b = y ∧ x0 ≤ a ∧ a < x0 + 8))]
              simpa using h4

end Sys2Proof.Machine
end

