-- ==== Sys2Proof/Laws/Encoding.lean ====
section
/-! SUPPORT. The fields of a word that was built from fields, and a word rebuilt from its fields (30_encoding.md R81). -/

namespace Sys2Proof

section Fields

variable (f x y n : Nibble) (nn : Byte) (nnn : Addr12) (w : Word)

@[simp] theorem fieldF_wordFXNN : fieldF (wordFXNN f x nn) = f := by
  apply BitVec.eq_of_toNat_eq
  simp [fieldF, wordFXNN, Nat.shiftRight_eq_div_pow]
  omega

@[simp] theorem fieldX_wordFXNN : fieldX (wordFXNN f x nn) = x := by
  apply BitVec.eq_of_toNat_eq
  simp [fieldX, wordFXNN, Nat.shiftRight_eq_div_pow]
  omega

@[simp] theorem fieldNN_wordFXNN : fieldNN (wordFXNN f x nn) = nn := by
  apply BitVec.eq_of_toNat_eq
  simp [fieldNN, wordFXNN]
  omega

@[simp] theorem fieldF_wordFNNN : fieldF (wordFNNN f nnn) = f := by
  apply BitVec.eq_of_toNat_eq
  simp [fieldF, wordFNNN, Nat.shiftRight_eq_div_pow]
  omega

@[simp] theorem fieldNNN_wordFNNN : fieldNNN (wordFNNN f nnn) = nnn := by
  apply BitVec.eq_of_toNat_eq
  simp [fieldNNN, wordFNNN]
  omega

@[simp] theorem fieldF_wordFXYN : fieldF (wordFXYN f x y n) = f := by
  apply BitVec.eq_of_toNat_eq
  simp [fieldF, wordFXYN, Nat.shiftRight_eq_div_pow]
  omega

@[simp] theorem fieldX_wordFXYN : fieldX (wordFXYN f x y n) = x := by
  apply BitVec.eq_of_toNat_eq
  simp [fieldX, wordFXYN, Nat.shiftRight_eq_div_pow]
  omega

@[simp] theorem fieldY_wordFXYN : fieldY (wordFXYN f x y n) = y := by
  apply BitVec.eq_of_toNat_eq
  simp [fieldY, wordFXYN, Nat.shiftRight_eq_div_pow]
  omega

@[simp] theorem fieldN_wordFXYN : fieldN (wordFXYN f x y n) = n := by
  apply BitVec.eq_of_toNat_eq
  simp [fieldN, wordFXYN]
  omega

/-- Every word is the FXNN word of its own fields. -/
theorem wordFXNN_fields : wordFXNN (fieldF w) (fieldX w) (fieldNN w) = w := by
  apply BitVec.eq_of_toNat_eq
  simp [fieldF, fieldX, fieldNN, wordFXNN, Nat.shiftRight_eq_div_pow]
  omega

/-- Every word is the FNNN word of its own fields. -/
theorem wordFNNN_fields : wordFNNN (fieldF w) (fieldNNN w) = w := by
  apply BitVec.eq_of_toNat_eq
  simp [fieldF, fieldNNN, wordFNNN, Nat.shiftRight_eq_div_pow]
  omega

/-- Every word is the FXYN word of its own fields. -/
theorem wordFXYN_fields : wordFXYN (fieldF w) (fieldX w) (fieldY w) (fieldN w) = w := by
  apply BitVec.eq_of_toNat_eq
  simp [fieldF, fieldX, fieldY, fieldN, wordFXYN, Nat.shiftRight_eq_div_pow]
  omega

/-- The byte NN holds the nibbles Y and N. -/
theorem fieldNN_toNat : (fieldNN w).toNat = (fieldY w).toNat * 16 + (fieldN w).toNat := by
  simp [fieldNN, fieldY, fieldN, Nat.shiftRight_eq_div_pow]
  omega

/-- The address NNN holds the nibble X and the byte NN. -/
theorem fieldNNN_toNat : (fieldNNN w).toNat = (fieldX w).toNat * 256 + (fieldNN w).toNat := by
  simp [fieldNNN, fieldX, fieldNN, Nat.shiftRight_eq_div_pow]
  omega

end Fields

@[simp] theorem wordOfBytes_bytes (w : Word) : wordOfBytes (highByte w) (lowByte w) = w := by
  apply BitVec.eq_of_toNat_eq
  simp [wordOfBytes, highByte, lowByte, Nat.shiftRight_eq_div_pow]
  omega

@[simp] theorem highByte_wordOfBytes (hi lo : Byte) : highByte (wordOfBytes hi lo) = hi := by
  apply BitVec.eq_of_toNat_eq
  simp [wordOfBytes, highByte, Nat.shiftRight_eq_div_pow]
  omega

@[simp] theorem lowByte_wordOfBytes (hi lo : Byte) : lowByte (wordOfBytes hi lo) = lo := by
  apply BitVec.eq_of_toNat_eq
  simp [wordOfBytes, lowByte]
  omega

/-- Decoding two bytes is decoding their big-endian word (20_memory.md R57). -/
theorem decodeBytes_cons (hi lo : Byte) (rest : List Byte) :
    decodeBytes (hi :: lo :: rest) = (decode (wordOfBytes hi lo)).map fun i => (i, rest) := rfl

/-- A table row's word reaches the decoder as its own 16 bits. -/
theorem decodeTableWord_eq (nbits w : Nat) :
    decodeTableWord nbits w = (decode (tableWord nbits w)).toOption := by
  simp only [decodeTableWord, decodeBytes_cons, wordOfBytes_bytes]
  cases decode (tableWord nbits w) <;> rfl

end Sys2Proof
end

