-- ==== Sys2Proof/Laws/Memory.lean ====
section
/-! SUPPORT. The laws of memory: a read after a write, at the address written and at every other, and the canonical form kept
by every operation. -/

namespace Sys2Proof.Machine

variable {font : Vector Byte 80}

/-! ## Reads after writes -/

theorem Memory.lookup_put (m : Memory) (a b : Nat) (x : Byte) :
    (m.put a x).lookup b = if a = b then some x else m.lookup b := by
  induction m with
  | nil => rfl
  | cons c rest ih =>
    obtain ⟨k, w⟩ := c
    simp only [Memory.put]
    split
    · simp only [Memory.lookup]
    · split
      · subst a
        simp only [Memory.lookup]
        split <;> rfl
      · simp only [Memory.lookup, ih]
        split
        · rw [if_neg (by omega)]
        · rfl

theorem Memory.lookup_erase (m : Memory) (a b : Nat) :
    (m.erase a).lookup b = if a = b then none else m.lookup b := by
  induction m with
  | nil => simp [Memory.erase, Memory.lookup]
  | cons c rest ih =>
    obtain ⟨k, w⟩ := c
    simp only [Memory.erase]
    split
    · rw [ih]
      simp only [Memory.lookup]
      split
      · rfl
      · rw [if_neg (by omega)]
    · simp only [Memory.lookup, ih]
      split
      · rw [if_neg (by omega)]
      · rfl

/-- A read after a write: the byte written at its address, the byte from before at every other. -/
theorem Memory.read_write (m : Memory) (a b : Nat) (x : Byte) :
    (m.write font a x).read font b = if a = b then x else m.read font b := by
  simp only [Memory.read, Memory.write]
  split
  · rw [Memory.lookup_erase]
    split
    · subst b
      simp [*]
    · rfl
  · rw [Memory.lookup_put]
    split <;> rfl

/-- A read after a write of consecutive bytes. -/
theorem Memory.read_writeBytes (bytes : List Byte) (m : Memory) (a b : Nat) :
    (m.writeBytes font a bytes).read font b =
      if h : a ≤ b ∧ b < a + bytes.length then bytes[b - a]'(by omega) else m.read font b := by
  induction bytes generalizing m a with
  | nil =>
    rw [dif_neg (by simp only [List.length_nil]; omega)]
    rfl
  | cons x rest ih =>
    simp only [Memory.writeBytes, ih, Memory.read_write, List.length_cons]
    by_cases hab : a = b
    · subst b
      rw [dif_neg (by omega), dif_pos (by omega)]
      simp
    · by_cases h : a + 1 ≤ b ∧ b < a + 1 + rest.length
      · rw [dif_pos h, dif_pos (by omega)]
        have : b - a = (b - (a + 1)) + 1 := by omega
        simp only [this, List.getElem_cons_succ]
      · rw [dif_neg h, dif_neg (by omega), if_neg hab]

theorem Memory.length_readBytes (m : Memory) (a n : Nat) : (m.readBytes font a n).length = n := by
  induction n generalizing a with
  | zero => rfl
  | succ n ih => simp [Memory.readBytes, ih]

/-- Byte `j` of a read of consecutive bytes. -/
theorem Memory.getElem_readBytes (m : Memory) (a n j : Nat) (h : j < (m.readBytes font a n).length) :
    (m.readBytes font a n)[j] = m.read font (a + j) := by
  induction n generalizing a j with
  | zero => simp [Memory.readBytes] at h
  | succ n ih =>
    cases j with
    | zero => rfl
    | succ j =>
      simp only [Memory.readBytes, List.getElem_cons_succ]
      rw [ih]
      congr 1
      omega

/-- The reset contents inside the font. -/
theorem resetByte_font (j : Fin 80) : resetByte font (0x050 + j.val) = font[j] := by
  simp only [resetByte]
  rw [dif_pos ⟨Nat.le_add_right _ _, Nat.add_lt_add_left j.isLt _⟩]
  simp [fontBase]

/-- The reset contents outside the font. -/
theorem resetByte_zero (a : Nat) (h : a < 0x050 ∨ 0x09F < a) : resetByte font a = 0 := by
  simp only [resetByte]
  rw [dif_neg (by simp only [fontBase]; omega)]

/-- An unlisted memory reads as the reset contents. -/
@[simp] theorem Memory.read_nil (a : Nat) : Memory.read font [] a = resetByte font a := rfl

/-! ## The canonical form -/

theorem Memory.mem_put {m : Memory} {a : Nat} {x : Byte} {c : Host.Cell} (h : c ∈ m.put a x) :
    c = (a, x) ∨ c ∈ m := by
  induction m with
  | nil => simpa [Memory.put] using h
  | cons d rest ih =>
    obtain ⟨k, w⟩ := d
    simp only [Memory.put] at h
    split at h
    · simpa using h
    · split at h
      · rcases List.mem_cons.mp h with h | h
        · exact .inl h
        · exact .inr (List.mem_cons_of_mem _ h)
      · rcases List.mem_cons.mp h with h | h
        · exact .inr (h ▸ List.mem_cons_self)
        · rcases ih h with h | h
          · exact .inl h
          · exact .inr (List.mem_cons_of_mem _ h)

theorem Memory.mem_erase {m : Memory} {a : Nat} {c : Host.Cell} (h : c ∈ m.erase a) : c ∈ m := by
  induction m with
  | nil => simp [Memory.erase] at h
  | cons d rest ih =>
    obtain ⟨k, w⟩ := d
    simp only [Memory.erase] at h
    split at h
    · exact List.mem_cons_of_mem _ (ih h)
    · rcases List.mem_cons.mp h with h | h
      · exact h ▸ List.mem_cons_self
      · exact List.mem_cons_of_mem _ (ih h)

theorem Memory.pairwise_put {m : Memory} (a : Nat) (x : Byte) (h : m.Pairwise fun c d => c.1 < d.1) :
    (m.put a x).Pairwise fun c d => c.1 < d.1 := by
  induction m with
  | nil => exact List.pairwise_singleton _ _
  | cons d rest ih =>
    obtain ⟨k, w⟩ := d
    obtain ⟨hk, hrest⟩ := List.pairwise_cons.mp h
    simp only [Memory.put]
    split
    · refine List.pairwise_cons.mpr ⟨fun c hc => ?_, h⟩
      rcases List.mem_cons.mp hc with hc | hc
      · subst hc
        assumption
      · have := hk c hc
        simp only at this ⊢
        omega
    · split
      · subst a
        exact List.pairwise_cons.mpr ⟨hk, hrest⟩
      · refine List.pairwise_cons.mpr ⟨fun c hc => ?_, ih hrest⟩
        rcases Memory.mem_put hc with hc | hc
        · subst hc
          simp only
          omega
        · exact hk c hc

theorem Memory.pairwise_erase {m : Memory} (a : Nat) (h : m.Pairwise fun c d => c.1 < d.1) :
    (m.erase a).Pairwise fun c d => c.1 < d.1 := by
  induction m with
  | nil => exact List.Pairwise.nil
  | cons d rest ih =>
    obtain ⟨k, w⟩ := d
    obtain ⟨hk, hrest⟩ := List.pairwise_cons.mp h
    simp only [Memory.erase]
    split
    · exact ih hrest
    · exact List.pairwise_cons.mpr ⟨fun c hc => hk c (Memory.mem_erase hc), ih hrest⟩

/-- A write inside memory keeps the canonical form. -/
theorem Memory.wf_write {m : Memory} {a : Nat} (x : Byte) (h : m.wf font) (ha : a < memSize) :
    (m.write font a x).wf font := by
  obtain ⟨hp, hc⟩ := h
  simp only [Memory.write]
  split
  · exact ⟨Memory.pairwise_erase a hp, fun c hm => hc c (Memory.mem_erase hm)⟩
  · refine ⟨Memory.pairwise_put a x hp, fun c hm => ?_⟩
    rcases Memory.mem_put hm with hm | hm
    · subst hm
      exact ⟨ha, by assumption⟩
    · exact hc c hm

/-- A write of consecutive bytes inside memory keeps the canonical form. -/
theorem Memory.wf_writeBytes (bytes : List Byte) {m : Memory} {a : Nat} (h : m.wf font)
    (ha : a + bytes.length ≤ memSize) : (m.writeBytes font a bytes).wf font := by
  induction bytes generalizing m a with
  | nil => exact h
  | cons x rest ih =>
    simp only [List.length_cons] at ha
    exact ih (Memory.wf_write x h (by omega)) (by omega)

theorem Memory.wf_nil : Memory.wf font [] := ⟨List.Pairwise.nil, by simp⟩

end Sys2Proof.Machine
end

