-- ==== Sys2Proof/Laws/State.lean ====
section
/-! SUPPORT. One lemma per field per update, each true by rfl: no proof unfolds a record update. -/

namespace Sys2Proof.Machine

variable (s : State)

/-! ## setPc -/

@[simp] theorem State.setPc_cfg (w : Word) : (s.setPc w).cfg = s.cfg := rfl
@[simp] theorem State.setPc_mem (w : Word) : (s.setPc w).mem = s.mem := rfl
@[simp] theorem State.setPc_v (w : Word) : (s.setPc w).v = s.v := rfl
@[simp] theorem State.setPc_idx (w : Word) : (s.setPc w).idx = s.idx := rfl
@[simp] theorem State.setPc_pc (w : Word) : (s.setPc w).pc = w := rfl
@[simp] theorem State.setPc_sp (w : Word) : (s.setPc w).sp = s.sp := rfl
@[simp] theorem State.setPc_stack (w : Word) : (s.setPc w).stack = s.stack := rfl
@[simp] theorem State.setPc_dt (w : Word) : (s.setPc w).dt = s.dt := rfl
@[simp] theorem State.setPc_st (w : Word) : (s.setPc w).st = s.st := rfl
@[simp] theorem State.setPc_disp (w : Word) : (s.setPc w).disp = s.disp := rfl
@[simp] theorem State.setPc_key (w : Word) : (s.setPc w).key = s.key := rfl
@[simp] theorem State.setPc_status (w : Word) : (s.setPc w).status = s.status := rfl
@[simp] theorem State.setPc_redraw (w : Word) : (s.setPc w).redraw = s.redraw := rfl
@[simp] theorem State.setPc_draws (w : Word) : (s.setPc w).draws = s.draws := rfl

/-! ## setIdx -/

@[simp] theorem State.setIdx_cfg (w : Word) : (s.setIdx w).cfg = s.cfg := rfl
@[simp] theorem State.setIdx_mem (w : Word) : (s.setIdx w).mem = s.mem := rfl
@[simp] theorem State.setIdx_v (w : Word) : (s.setIdx w).v = s.v := rfl
@[simp] theorem State.setIdx_idx (w : Word) : (s.setIdx w).idx = w := rfl
@[simp] theorem State.setIdx_pc (w : Word) : (s.setIdx w).pc = s.pc := rfl
@[simp] theorem State.setIdx_sp (w : Word) : (s.setIdx w).sp = s.sp := rfl
@[simp] theorem State.setIdx_stack (w : Word) : (s.setIdx w).stack = s.stack := rfl
@[simp] theorem State.setIdx_dt (w : Word) : (s.setIdx w).dt = s.dt := rfl
@[simp] theorem State.setIdx_st (w : Word) : (s.setIdx w).st = s.st := rfl
@[simp] theorem State.setIdx_disp (w : Word) : (s.setIdx w).disp = s.disp := rfl
@[simp] theorem State.setIdx_key (w : Word) : (s.setIdx w).key = s.key := rfl
@[simp] theorem State.setIdx_status (w : Word) : (s.setIdx w).status = s.status := rfl
@[simp] theorem State.setIdx_redraw (w : Word) : (s.setIdx w).redraw = s.redraw := rfl
@[simp] theorem State.setIdx_draws (w : Word) : (s.setIdx w).draws = s.draws := rfl

/-! ## setDt -/

@[simp] theorem State.setDt_cfg (b : Byte) : (s.setDt b).cfg = s.cfg := rfl
@[simp] theorem State.setDt_mem (b : Byte) : (s.setDt b).mem = s.mem := rfl
@[simp] theorem State.setDt_v (b : Byte) : (s.setDt b).v = s.v := rfl
@[simp] theorem State.setDt_idx (b : Byte) : (s.setDt b).idx = s.idx := rfl
@[simp] theorem State.setDt_pc (b : Byte) : (s.setDt b).pc = s.pc := rfl
@[simp] theorem State.setDt_sp (b : Byte) : (s.setDt b).sp = s.sp := rfl
@[simp] theorem State.setDt_stack (b : Byte) : (s.setDt b).stack = s.stack := rfl
@[simp] theorem State.setDt_dt (b : Byte) : (s.setDt b).dt = b := rfl
@[simp] theorem State.setDt_st (b : Byte) : (s.setDt b).st = s.st := rfl
@[simp] theorem State.setDt_disp (b : Byte) : (s.setDt b).disp = s.disp := rfl
@[simp] theorem State.setDt_key (b : Byte) : (s.setDt b).key = s.key := rfl
@[simp] theorem State.setDt_status (b : Byte) : (s.setDt b).status = s.status := rfl
@[simp] theorem State.setDt_redraw (b : Byte) : (s.setDt b).redraw = s.redraw := rfl
@[simp] theorem State.setDt_draws (b : Byte) : (s.setDt b).draws = s.draws := rfl

/-! ## setSt -/

@[simp] theorem State.setSt_cfg (b : Byte) : (s.setSt b).cfg = s.cfg := rfl
@[simp] theorem State.setSt_mem (b : Byte) : (s.setSt b).mem = s.mem := rfl
@[simp] theorem State.setSt_v (b : Byte) : (s.setSt b).v = s.v := rfl
@[simp] theorem State.setSt_idx (b : Byte) : (s.setSt b).idx = s.idx := rfl
@[simp] theorem State.setSt_pc (b : Byte) : (s.setSt b).pc = s.pc := rfl
@[simp] theorem State.setSt_sp (b : Byte) : (s.setSt b).sp = s.sp := rfl
@[simp] theorem State.setSt_stack (b : Byte) : (s.setSt b).stack = s.stack := rfl
@[simp] theorem State.setSt_dt (b : Byte) : (s.setSt b).dt = s.dt := rfl
@[simp] theorem State.setSt_st (b : Byte) : (s.setSt b).st = b := rfl
@[simp] theorem State.setSt_disp (b : Byte) : (s.setSt b).disp = s.disp := rfl
@[simp] theorem State.setSt_key (b : Byte) : (s.setSt b).key = s.key := rfl
@[simp] theorem State.setSt_status (b : Byte) : (s.setSt b).status = s.status := rfl
@[simp] theorem State.setSt_redraw (b : Byte) : (s.setSt b).redraw = s.redraw := rfl
@[simp] theorem State.setSt_draws (b : Byte) : (s.setSt b).draws = s.draws := rfl

/-! ## setDisp -/

@[simp] theorem State.setDisp_cfg (d : Display) : (s.setDisp d).cfg = s.cfg := rfl
@[simp] theorem State.setDisp_mem (d : Display) : (s.setDisp d).mem = s.mem := rfl
@[simp] theorem State.setDisp_v (d : Display) : (s.setDisp d).v = s.v := rfl
@[simp] theorem State.setDisp_idx (d : Display) : (s.setDisp d).idx = s.idx := rfl
@[simp] theorem State.setDisp_pc (d : Display) : (s.setDisp d).pc = s.pc := rfl
@[simp] theorem State.setDisp_sp (d : Display) : (s.setDisp d).sp = s.sp := rfl
@[simp] theorem State.setDisp_stack (d : Display) : (s.setDisp d).stack = s.stack := rfl
@[simp] theorem State.setDisp_dt (d : Display) : (s.setDisp d).dt = s.dt := rfl
@[simp] theorem State.setDisp_st (d : Display) : (s.setDisp d).st = s.st := rfl
@[simp] theorem State.setDisp_disp (d : Display) : (s.setDisp d).disp = d := rfl
@[simp] theorem State.setDisp_key (d : Display) : (s.setDisp d).key = s.key := rfl
@[simp] theorem State.setDisp_status (d : Display) : (s.setDisp d).status = s.status := rfl
@[simp] theorem State.setDisp_redraw (d : Display) : (s.setDisp d).redraw = s.redraw := rfl
@[simp] theorem State.setDisp_draws (d : Display) : (s.setDisp d).draws = s.draws := rfl

/-! ## setKey -/

@[simp] theorem State.setKey_cfg (k : Keys) : (s.setKey k).cfg = s.cfg := rfl
@[simp] theorem State.setKey_mem (k : Keys) : (s.setKey k).mem = s.mem := rfl
@[simp] theorem State.setKey_v (k : Keys) : (s.setKey k).v = s.v := rfl
@[simp] theorem State.setKey_idx (k : Keys) : (s.setKey k).idx = s.idx := rfl
@[simp] theorem State.setKey_pc (k : Keys) : (s.setKey k).pc = s.pc := rfl
@[simp] theorem State.setKey_sp (k : Keys) : (s.setKey k).sp = s.sp := rfl
@[simp] theorem State.setKey_stack (k : Keys) : (s.setKey k).stack = s.stack := rfl
@[simp] theorem State.setKey_dt (k : Keys) : (s.setKey k).dt = s.dt := rfl
@[simp] theorem State.setKey_st (k : Keys) : (s.setKey k).st = s.st := rfl
@[simp] theorem State.setKey_disp (k : Keys) : (s.setKey k).disp = s.disp := rfl
@[simp] theorem State.setKey_key (k : Keys) : (s.setKey k).key = k := rfl
@[simp] theorem State.setKey_status (k : Keys) : (s.setKey k).status = s.status := rfl
@[simp] theorem State.setKey_redraw (k : Keys) : (s.setKey k).redraw = s.redraw := rfl
@[simp] theorem State.setKey_draws (k : Keys) : (s.setKey k).draws = s.draws := rfl

/-! ## setStatus -/

@[simp] theorem State.setStatus_cfg (x : Status) : (s.setStatus x).cfg = s.cfg := rfl
@[simp] theorem State.setStatus_mem (x : Status) : (s.setStatus x).mem = s.mem := rfl
@[simp] theorem State.setStatus_v (x : Status) : (s.setStatus x).v = s.v := rfl
@[simp] theorem State.setStatus_idx (x : Status) : (s.setStatus x).idx = s.idx := rfl
@[simp] theorem State.setStatus_pc (x : Status) : (s.setStatus x).pc = s.pc := rfl
@[simp] theorem State.setStatus_sp (x : Status) : (s.setStatus x).sp = s.sp := rfl
@[simp] theorem State.setStatus_stack (x : Status) : (s.setStatus x).stack = s.stack := rfl
@[simp] theorem State.setStatus_dt (x : Status) : (s.setStatus x).dt = s.dt := rfl
@[simp] theorem State.setStatus_st (x : Status) : (s.setStatus x).st = s.st := rfl
@[simp] theorem State.setStatus_disp (x : Status) : (s.setStatus x).disp = s.disp := rfl
@[simp] theorem State.setStatus_key (x : Status) : (s.setStatus x).key = s.key := rfl
@[simp] theorem State.setStatus_status (x : Status) : (s.setStatus x).status = x := rfl
@[simp] theorem State.setStatus_redraw (x : Status) : (s.setStatus x).redraw = s.redraw := rfl
@[simp] theorem State.setStatus_draws (x : Status) : (s.setStatus x).draws = s.draws := rfl

/-! ## setMem -/

@[simp] theorem State.setMem_cfg (m : Memory) : (s.setMem m).cfg = s.cfg := rfl
@[simp] theorem State.setMem_mem (m : Memory) : (s.setMem m).mem = m := rfl
@[simp] theorem State.setMem_v (m : Memory) : (s.setMem m).v = s.v := rfl
@[simp] theorem State.setMem_idx (m : Memory) : (s.setMem m).idx = s.idx := rfl
@[simp] theorem State.setMem_pc (m : Memory) : (s.setMem m).pc = s.pc := rfl
@[simp] theorem State.setMem_sp (m : Memory) : (s.setMem m).sp = s.sp := rfl
@[simp] theorem State.setMem_stack (m : Memory) : (s.setMem m).stack = s.stack := rfl
@[simp] theorem State.setMem_dt (m : Memory) : (s.setMem m).dt = s.dt := rfl
@[simp] theorem State.setMem_st (m : Memory) : (s.setMem m).st = s.st := rfl
@[simp] theorem State.setMem_disp (m : Memory) : (s.setMem m).disp = s.disp := rfl
@[simp] theorem State.setMem_key (m : Memory) : (s.setMem m).key = s.key := rfl
@[simp] theorem State.setMem_status (m : Memory) : (s.setMem m).status = s.status := rfl
@[simp] theorem State.setMem_redraw (m : Memory) : (s.setMem m).redraw = s.redraw := rfl
@[simp] theorem State.setMem_draws (m : Memory) : (s.setMem m).draws = s.draws := rfl

/-! ## setRegs -/

@[simp] theorem State.setRegs_cfg (v : Vector Byte 16) : (s.setRegs v).cfg = s.cfg := rfl
@[simp] theorem State.setRegs_mem (v : Vector Byte 16) : (s.setRegs v).mem = s.mem := rfl
@[simp] theorem State.setRegs_v (v : Vector Byte 16) : (s.setRegs v).v = v := rfl
@[simp] theorem State.setRegs_idx (v : Vector Byte 16) : (s.setRegs v).idx = s.idx := rfl
@[simp] theorem State.setRegs_pc (v : Vector Byte 16) : (s.setRegs v).pc = s.pc := rfl
@[simp] theorem State.setRegs_sp (v : Vector Byte 16) : (s.setRegs v).sp = s.sp := rfl
@[simp] theorem State.setRegs_stack (v : Vector Byte 16) : (s.setRegs v).stack = s.stack := rfl
@[simp] theorem State.setRegs_dt (v : Vector Byte 16) : (s.setRegs v).dt = s.dt := rfl
@[simp] theorem State.setRegs_st (v : Vector Byte 16) : (s.setRegs v).st = s.st := rfl
@[simp] theorem State.setRegs_disp (v : Vector Byte 16) : (s.setRegs v).disp = s.disp := rfl
@[simp] theorem State.setRegs_key (v : Vector Byte 16) : (s.setRegs v).key = s.key := rfl
@[simp] theorem State.setRegs_status (v : Vector Byte 16) : (s.setRegs v).status = s.status := rfl
@[simp] theorem State.setRegs_redraw (v : Vector Byte 16) : (s.setRegs v).redraw = s.redraw := rfl
@[simp] theorem State.setRegs_draws (v : Vector Byte 16) : (s.setRegs v).draws = s.draws := rfl

/-! ## setStack -/

@[simp] theorem State.setStack_cfg (n : Fin 17) (k : Vector Word 16) : (s.setStack n k).cfg = s.cfg := rfl
@[simp] theorem State.setStack_mem (n : Fin 17) (k : Vector Word 16) : (s.setStack n k).mem = s.mem := rfl
@[simp] theorem State.setStack_v (n : Fin 17) (k : Vector Word 16) : (s.setStack n k).v = s.v := rfl
@[simp] theorem State.setStack_idx (n : Fin 17) (k : Vector Word 16) : (s.setStack n k).idx = s.idx := rfl
@[simp] theorem State.setStack_pc (n : Fin 17) (k : Vector Word 16) : (s.setStack n k).pc = s.pc := rfl
@[simp] theorem State.setStack_sp (n : Fin 17) (k : Vector Word 16) : (s.setStack n k).sp = n := rfl
@[simp] theorem State.setStack_stack (n : Fin 17) (k : Vector Word 16) : (s.setStack n k).stack = k := rfl
@[simp] theorem State.setStack_dt (n : Fin 17) (k : Vector Word 16) : (s.setStack n k).dt = s.dt := rfl
@[simp] theorem State.setStack_st (n : Fin 17) (k : Vector Word 16) : (s.setStack n k).st = s.st := rfl
@[simp] theorem State.setStack_disp (n : Fin 17) (k : Vector Word 16) : (s.setStack n k).disp = s.disp := rfl
@[simp] theorem State.setStack_key (n : Fin 17) (k : Vector Word 16) : (s.setStack n k).key = s.key := rfl
@[simp] theorem State.setStack_status (n : Fin 17) (k : Vector Word 16) : (s.setStack n k).status = s.status := rfl
@[simp] theorem State.setStack_redraw (n : Fin 17) (k : Vector Word 16) : (s.setStack n k).redraw = s.redraw := rfl
@[simp] theorem State.setStack_draws (n : Fin 17) (k : Vector Word 16) : (s.setStack n k).draws = s.draws := rfl

/-! ## setRedraw -/

@[simp] theorem State.setRedraw_cfg (b : Bool) : (s.setRedraw b).cfg = s.cfg := rfl
@[simp] theorem State.setRedraw_mem (b : Bool) : (s.setRedraw b).mem = s.mem := rfl
@[simp] theorem State.setRedraw_v (b : Bool) : (s.setRedraw b).v = s.v := rfl
@[simp] theorem State.setRedraw_idx (b : Bool) : (s.setRedraw b).idx = s.idx := rfl
@[simp] theorem State.setRedraw_pc (b : Bool) : (s.setRedraw b).pc = s.pc := rfl
@[simp] theorem State.setRedraw_sp (b : Bool) : (s.setRedraw b).sp = s.sp := rfl
@[simp] theorem State.setRedraw_stack (b : Bool) : (s.setRedraw b).stack = s.stack := rfl
@[simp] theorem State.setRedraw_dt (b : Bool) : (s.setRedraw b).dt = s.dt := rfl
@[simp] theorem State.setRedraw_st (b : Bool) : (s.setRedraw b).st = s.st := rfl
@[simp] theorem State.setRedraw_disp (b : Bool) : (s.setRedraw b).disp = s.disp := rfl
@[simp] theorem State.setRedraw_key (b : Bool) : (s.setRedraw b).key = s.key := rfl
@[simp] theorem State.setRedraw_status (b : Bool) : (s.setRedraw b).status = s.status := rfl
@[simp] theorem State.setRedraw_redraw (b : Bool) : (s.setRedraw b).redraw = b := rfl
@[simp] theorem State.setRedraw_draws (b : Bool) : (s.setRedraw b).draws = s.draws := rfl

/-! ## setDraws -/

@[simp] theorem State.setDraws_cfg (n : Nat) : (s.setDraws n).cfg = s.cfg := rfl
@[simp] theorem State.setDraws_mem (n : Nat) : (s.setDraws n).mem = s.mem := rfl
@[simp] theorem State.setDraws_v (n : Nat) : (s.setDraws n).v = s.v := rfl
@[simp] theorem State.setDraws_idx (n : Nat) : (s.setDraws n).idx = s.idx := rfl
@[simp] theorem State.setDraws_pc (n : Nat) : (s.setDraws n).pc = s.pc := rfl
@[simp] theorem State.setDraws_sp (n : Nat) : (s.setDraws n).sp = s.sp := rfl
@[simp] theorem State.setDraws_stack (n : Nat) : (s.setDraws n).stack = s.stack := rfl
@[simp] theorem State.setDraws_dt (n : Nat) : (s.setDraws n).dt = s.dt := rfl
@[simp] theorem State.setDraws_st (n : Nat) : (s.setDraws n).st = s.st := rfl
@[simp] theorem State.setDraws_disp (n : Nat) : (s.setDraws n).disp = s.disp := rfl
@[simp] theorem State.setDraws_key (n : Nat) : (s.setDraws n).key = s.key := rfl
@[simp] theorem State.setDraws_status (n : Nat) : (s.setDraws n).status = s.status := rfl
@[simp] theorem State.setDraws_redraw (n : Nat) : (s.setDraws n).redraw = s.redraw := rfl
@[simp] theorem State.setDraws_draws (n : Nat) : (s.setDraws n).draws = n := rfl

/-! ## writeV -/

@[simp] theorem State.writeV_cfg (x : Nibble) (b : Byte) : (s.writeV x b).cfg = s.cfg := rfl
@[simp] theorem State.writeV_mem (x : Nibble) (b : Byte) : (s.writeV x b).mem = s.mem := rfl
@[simp] theorem State.writeV_v (x : Nibble) (b : Byte) : (s.writeV x b).v = s.v.set x.toNat b x.isLt := rfl
@[simp] theorem State.writeV_idx (x : Nibble) (b : Byte) : (s.writeV x b).idx = s.idx := rfl
@[simp] theorem State.writeV_pc (x : Nibble) (b : Byte) : (s.writeV x b).pc = s.pc := rfl
@[simp] theorem State.writeV_sp (x : Nibble) (b : Byte) : (s.writeV x b).sp = s.sp := rfl
@[simp] theorem State.writeV_stack (x : Nibble) (b : Byte) : (s.writeV x b).stack = s.stack := rfl
@[simp] theorem State.writeV_dt (x : Nibble) (b : Byte) : (s.writeV x b).dt = s.dt := rfl
@[simp] theorem State.writeV_st (x : Nibble) (b : Byte) : (s.writeV x b).st = s.st := rfl
@[simp] theorem State.writeV_disp (x : Nibble) (b : Byte) : (s.writeV x b).disp = s.disp := rfl
@[simp] theorem State.writeV_key (x : Nibble) (b : Byte) : (s.writeV x b).key = s.key := rfl
@[simp] theorem State.writeV_status (x : Nibble) (b : Byte) : (s.writeV x b).status = s.status := rfl
@[simp] theorem State.writeV_redraw (x : Nibble) (b : Byte) : (s.writeV x b).redraw = s.redraw := rfl
@[simp] theorem State.writeV_draws (x : Nibble) (b : Byte) : (s.writeV x b).draws = s.draws := rfl

/-! ## writeFlag -/

@[simp] theorem State.writeFlag_cfg (f : Bool) : (s.writeFlag f).cfg = s.cfg := rfl
@[simp] theorem State.writeFlag_mem (f : Bool) : (s.writeFlag f).mem = s.mem := rfl
@[simp] theorem State.writeFlag_v (f : Bool) : (s.writeFlag f).v = s.v.set 15 (if f then 1 else 0) := rfl
@[simp] theorem State.writeFlag_idx (f : Bool) : (s.writeFlag f).idx = s.idx := rfl
@[simp] theorem State.writeFlag_pc (f : Bool) : (s.writeFlag f).pc = s.pc := rfl
@[simp] theorem State.writeFlag_sp (f : Bool) : (s.writeFlag f).sp = s.sp := rfl
@[simp] theorem State.writeFlag_stack (f : Bool) : (s.writeFlag f).stack = s.stack := rfl
@[simp] theorem State.writeFlag_dt (f : Bool) : (s.writeFlag f).dt = s.dt := rfl
@[simp] theorem State.writeFlag_st (f : Bool) : (s.writeFlag f).st = s.st := rfl
@[simp] theorem State.writeFlag_disp (f : Bool) : (s.writeFlag f).disp = s.disp := rfl
@[simp] theorem State.writeFlag_key (f : Bool) : (s.writeFlag f).key = s.key := rfl
@[simp] theorem State.writeFlag_status (f : Bool) : (s.writeFlag f).status = s.status := rfl
@[simp] theorem State.writeFlag_redraw (f : Bool) : (s.writeFlag f).redraw = s.redraw := rfl
@[simp] theorem State.writeFlag_draws (f : Bool) : (s.writeFlag f).draws = s.draws := rfl

/-! ## writeBytes -/

@[simp] theorem State.writeBytes_cfg (a : Nat) (bs : List Byte) : (s.writeBytes a bs).cfg = s.cfg := rfl
@[simp] theorem State.writeBytes_mem (a : Nat) (bs : List Byte) : (s.writeBytes a bs).mem = s.mem.writeBytes s.cfg.font a bs := rfl
@[simp] theorem State.writeBytes_v (a : Nat) (bs : List Byte) : (s.writeBytes a bs).v = s.v := rfl
@[simp] theorem State.writeBytes_idx (a : Nat) (bs : List Byte) : (s.writeBytes a bs).idx = s.idx := rfl
@[simp] theorem State.writeBytes_pc (a : Nat) (bs : List Byte) : (s.writeBytes a bs).pc = s.pc := rfl
@[simp] theorem State.writeBytes_sp (a : Nat) (bs : List Byte) : (s.writeBytes a bs).sp = s.sp := rfl
@[simp] theorem State.writeBytes_stack (a : Nat) (bs : List Byte) : (s.writeBytes a bs).stack = s.stack := rfl
@[simp] theorem State.writeBytes_dt (a : Nat) (bs : List Byte) : (s.writeBytes a bs).dt = s.dt := rfl
@[simp] theorem State.writeBytes_st (a : Nat) (bs : List Byte) : (s.writeBytes a bs).st = s.st := rfl
@[simp] theorem State.writeBytes_disp (a : Nat) (bs : List Byte) : (s.writeBytes a bs).disp = s.disp := rfl
@[simp] theorem State.writeBytes_key (a : Nat) (bs : List Byte) : (s.writeBytes a bs).key = s.key := rfl
@[simp] theorem State.writeBytes_status (a : Nat) (bs : List Byte) : (s.writeBytes a bs).status = s.status := rfl
@[simp] theorem State.writeBytes_redraw (a : Nat) (bs : List Byte) : (s.writeBytes a bs).redraw = s.redraw := rfl
@[simp] theorem State.writeBytes_draws (a : Nat) (bs : List Byte) : (s.writeBytes a bs).draws = s.draws := rfl

/-! ## loadBlock -/

@[simp] theorem State.loadBlock_cfg (x : Nibble) (a : Nat) : (s.loadBlock x a).cfg = s.cfg := by
  simp only [State.loadBlock, State.setRegs_cfg]
@[simp] theorem State.loadBlock_mem (x : Nibble) (a : Nat) : (s.loadBlock x a).mem = s.mem := by
  simp only [State.loadBlock, State.setRegs_mem]
@[simp] theorem State.loadBlock_idx (x : Nibble) (a : Nat) : (s.loadBlock x a).idx = s.idx := by
  simp only [State.loadBlock, State.setRegs_idx]
@[simp] theorem State.loadBlock_pc (x : Nibble) (a : Nat) : (s.loadBlock x a).pc = s.pc := by
  simp only [State.loadBlock, State.setRegs_pc]
@[simp] theorem State.loadBlock_sp (x : Nibble) (a : Nat) : (s.loadBlock x a).sp = s.sp := by
  simp only [State.loadBlock, State.setRegs_sp]
@[simp] theorem State.loadBlock_stack (x : Nibble) (a : Nat) : (s.loadBlock x a).stack = s.stack := by
  simp only [State.loadBlock, State.setRegs_stack]
@[simp] theorem State.loadBlock_dt (x : Nibble) (a : Nat) : (s.loadBlock x a).dt = s.dt := by
  simp only [State.loadBlock, State.setRegs_dt]
@[simp] theorem State.loadBlock_st (x : Nibble) (a : Nat) : (s.loadBlock x a).st = s.st := by
  simp only [State.loadBlock, State.setRegs_st]
@[simp] theorem State.loadBlock_disp (x : Nibble) (a : Nat) : (s.loadBlock x a).disp = s.disp := by
  simp only [State.loadBlock, State.setRegs_disp]
@[simp] theorem State.loadBlock_key (x : Nibble) (a : Nat) : (s.loadBlock x a).key = s.key := by
  simp only [State.loadBlock, State.setRegs_key]
@[simp] theorem State.loadBlock_status (x : Nibble) (a : Nat) : (s.loadBlock x a).status = s.status := by
  simp only [State.loadBlock, State.setRegs_status]
@[simp] theorem State.loadBlock_redraw (x : Nibble) (a : Nat) : (s.loadBlock x a).redraw = s.redraw := by
  simp only [State.loadBlock, State.setRegs_redraw]
@[simp] theorem State.loadBlock_draws (x : Nibble) (a : Nat) : (s.loadBlock x a).draws = s.draws := by
  simp only [State.loadBlock, State.setRegs_draws]

/-! ## unfetch -/

@[simp] theorem State.unfetch_cfg : s.unfetch.cfg = s.cfg := rfl
@[simp] theorem State.unfetch_mem : s.unfetch.mem = s.mem := rfl
@[simp] theorem State.unfetch_v : s.unfetch.v = s.v := rfl
@[simp] theorem State.unfetch_idx : s.unfetch.idx = s.idx := rfl
@[simp] theorem State.unfetch_pc : s.unfetch.pc = s.pc - 2 := rfl
@[simp] theorem State.unfetch_sp : s.unfetch.sp = s.sp := rfl
@[simp] theorem State.unfetch_stack : s.unfetch.stack = s.stack := rfl
@[simp] theorem State.unfetch_dt : s.unfetch.dt = s.dt := rfl
@[simp] theorem State.unfetch_st : s.unfetch.st = s.st := rfl
@[simp] theorem State.unfetch_disp : s.unfetch.disp = s.disp := rfl
@[simp] theorem State.unfetch_key : s.unfetch.key = s.key := rfl
@[simp] theorem State.unfetch_status : s.unfetch.status = s.status := rfl
@[simp] theorem State.unfetch_redraw : s.unfetch.redraw = s.redraw := rfl
@[simp] theorem State.unfetch_draws : s.unfetch.draws = s.draws := rfl

/-! ## countDraw -/

@[simp] theorem State.countDraw_cfg : s.countDraw.cfg = s.cfg := rfl
@[simp] theorem State.countDraw_mem : s.countDraw.mem = s.mem := rfl
@[simp] theorem State.countDraw_v : s.countDraw.v = s.v := rfl
@[simp] theorem State.countDraw_idx : s.countDraw.idx = s.idx := rfl
@[simp] theorem State.countDraw_pc : s.countDraw.pc = s.pc := rfl
@[simp] theorem State.countDraw_sp : s.countDraw.sp = s.sp := rfl
@[simp] theorem State.countDraw_stack : s.countDraw.stack = s.stack := rfl
@[simp] theorem State.countDraw_dt : s.countDraw.dt = s.dt := rfl
@[simp] theorem State.countDraw_st : s.countDraw.st = s.st := rfl
@[simp] theorem State.countDraw_disp : s.countDraw.disp = s.disp := rfl
@[simp] theorem State.countDraw_key : s.countDraw.key = s.key := rfl
@[simp] theorem State.countDraw_status : s.countDraw.status = s.status := rfl
@[simp] theorem State.countDraw_redraw : s.countDraw.redraw = s.redraw := rfl
@[simp] theorem State.countDraw_draws : s.countDraw.draws = s.draws + 1 := rfl

/-! ## enterFault -/

@[simp] theorem State.enterFault_cfg (c : Fault) (w : Option Word) : (s.enterFault c w).cfg = s.cfg := rfl
@[simp] theorem State.enterFault_mem (c : Fault) (w : Option Word) : (s.enterFault c w).mem = s.mem := rfl
@[simp] theorem State.enterFault_v (c : Fault) (w : Option Word) : (s.enterFault c w).v = s.v := rfl
@[simp] theorem State.enterFault_idx (c : Fault) (w : Option Word) : (s.enterFault c w).idx = s.idx := rfl
@[simp] theorem State.enterFault_pc (c : Fault) (w : Option Word) : (s.enterFault c w).pc = s.pc := rfl
@[simp] theorem State.enterFault_sp (c : Fault) (w : Option Word) : (s.enterFault c w).sp = s.sp := rfl
@[simp] theorem State.enterFault_stack (c : Fault) (w : Option Word) : (s.enterFault c w).stack = s.stack := rfl
@[simp] theorem State.enterFault_dt (c : Fault) (w : Option Word) : (s.enterFault c w).dt = s.dt := rfl
@[simp] theorem State.enterFault_st (c : Fault) (w : Option Word) : (s.enterFault c w).st = s.st := rfl
@[simp] theorem State.enterFault_disp (c : Fault) (w : Option Word) : (s.enterFault c w).disp = s.disp := rfl
@[simp] theorem State.enterFault_key (c : Fault) (w : Option Word) : (s.enterFault c w).key = s.key := rfl
@[simp] theorem State.enterFault_status (c : Fault) (w : Option Word) : (s.enterFault c w).status = .faulted (FaultRecord.mk c s.pc w) := rfl
@[simp] theorem State.enterFault_redraw (c : Fault) (w : Option Word) : (s.enterFault c w).redraw = s.redraw := rfl
@[simp] theorem State.enterFault_draws (c : Fault) (w : Option Word) : (s.enterFault c w).draws = s.draws := rfl

end Sys2Proof.Machine
end

