-- ==== Sys2Proof/Laws/Ops.lean ====
section
/-! SUPPORT. One lemma per shared operation of Sys2Proof/Machine/Ops.lean and Operands.lean that says everything it can do. -/

namespace Sys2Proof.Machine

/-! ## Registers -/

theorem State.readV_eq_of_v {s t : State} (h : s.v = t.v) (x : Nibble) : s.readV x = t.readV x := by
  simp [State.readV, h]

/-- A register read after a register write. -/
@[simp] theorem State.readV_writeV (s : State) (x r : Nibble) (b : Byte) :
    (s.writeV x b).readV r = if r = x then b else s.readV r := by
  simp only [State.readV, State.writeV_v, Vector.getElem_set]
  by_cases h : r = x
  · subst h; simp
  · rw [if_neg (fun e => h (BitVec.eq_of_toNat_eq e.symm)), if_neg h]

/-- A register read after the flag is written. -/
@[simp] theorem State.readV_writeFlag (s : State) (r : Nibble) (f : Bool) :
    (s.writeFlag f).readV r = if r = flagReg then (if f then 1 else 0) else s.readV r := by
  simp only [State.writeFlag, State.readV_writeV]

@[simp] theorem State.readV_setPc (s : State) (w : Word) (r : Nibble) : (s.setPc w).readV r = s.readV r := rfl
@[simp] theorem State.readV_setIdx (s : State) (w : Word) (r : Nibble) : (s.setIdx w).readV r = s.readV r := rfl
@[simp] theorem State.readV_setDt (s : State) (b : Byte) (r : Nibble) : (s.setDt b).readV r = s.readV r := rfl
@[simp] theorem State.readV_setSt (s : State) (b : Byte) (r : Nibble) : (s.setSt b).readV r = s.readV r := rfl
@[simp] theorem State.readV_setDisp (s : State) (d : Display) (r : Nibble) : (s.setDisp d).readV r = s.readV r := rfl
@[simp] theorem State.readV_setKey (s : State) (k : Keys) (r : Nibble) : (s.setKey k).readV r = s.readV r := rfl
@[simp] theorem State.readV_setStatus (s : State) (x : Status) (r : Nibble) :
    (s.setStatus x).readV r = s.readV r := rfl
@[simp] theorem State.readV_setMem (s : State) (m : Memory) (r : Nibble) : (s.setMem m).readV r = s.readV r := rfl
@[simp] theorem State.readV_setStack (s : State) (n : Fin 17) (k : Vector Word 16) (r : Nibble) :
    (s.setStack n k).readV r = s.readV r := rfl
@[simp] theorem State.readV_setRedraw (s : State) (b : Bool) (r : Nibble) :
    (s.setRedraw b).readV r = s.readV r := rfl
@[simp] theorem State.readV_setDraws (s : State) (n : Nat) (r : Nibble) : (s.setDraws n).readV r = s.readV r := rfl
@[simp] theorem State.readV_countDraw (s : State) (r : Nibble) : s.countDraw.readV r = s.readV r := rfl
@[simp] theorem State.readV_unfetch (s : State) (r : Nibble) : s.unfetch.readV r = s.readV r := rfl
@[simp] theorem State.readV_enterFault (s : State) (c : Fault) (w : Option Word) (r : Nibble) :
    (s.enterFault c w).readV r = s.readV r := rfl
@[simp] theorem State.readV_writeBytes (s : State) (a : Nat) (bs : List Byte) (r : Nibble) :
    (s.writeBytes a bs).readV r = s.readV r := rfl

/-- A register after FX65's block load: the byte at its address up to VX, its old value above. -/
@[simp] theorem State.readV_loadBlock (s : State) (x r : Nibble) (a : Nat) :
    (s.loadBlock x a).readV r = if r.toNat ≤ x.toNat then s.readMem (a + r.toNat) else s.readV r := by
  simp [State.readV, State.loadBlock]

theorem State.length_readBlock (s : State) (x : Nibble) : (s.readBlock x).length = x.toNat + 1 := by
  have := x.isLt
  simp [State.readBlock, blockLength]
  omega

/-- Byte `j` of the block V0..VX is Vj. -/
theorem State.getElem_readBlock (s : State) (x : Nibble) (j : Nat) (h : j < (s.readBlock x).length) :
    (s.readBlock x)[j] = s.readV (BitVec.ofNat 4 j) := by
  have hx := x.isLt
  rw [State.length_readBlock] at h
  have hj : j % 16 = j := by omega
  simp [State.readBlock, State.readV, hj]

/-! ## Memory -/

/-- A memory read depends on memory and the configuration only. -/
theorem State.readMem_congr {s t : State} (h : t.mem = s.mem) (h' : t.cfg = s.cfg) (a : Nat) :
    t.readMem a = s.readMem a := by
  simp [State.readMem, h, h']

@[simp] theorem State.readMem_setPc (s : State) (w : Word) (a : Nat) :
    (s.setPc w).readMem a = s.readMem a := State.readMem_congr rfl rfl a
@[simp] theorem State.readMem_setIdx (s : State) (w : Word) (a : Nat) :
    (s.setIdx w).readMem a = s.readMem a := State.readMem_congr rfl rfl a
@[simp] theorem State.readMem_setDt (s : State) (b : Byte) (a : Nat) :
    (s.setDt b).readMem a = s.readMem a := State.readMem_congr rfl rfl a
@[simp] theorem State.readMem_setSt (s : State) (b : Byte) (a : Nat) :
    (s.setSt b).readMem a = s.readMem a := State.readMem_congr rfl rfl a
@[simp] theorem State.readMem_setDisp (s : State) (d : Display) (a : Nat) :
    (s.setDisp d).readMem a = s.readMem a := State.readMem_congr rfl rfl a
@[simp] theorem State.readMem_setKey (s : State) (k : Keys) (a : Nat) :
    (s.setKey k).readMem a = s.readMem a := State.readMem_congr rfl rfl a
@[simp] theorem State.readMem_setStatus (s : State) (x : Status) (a : Nat) :
    (s.setStatus x).readMem a = s.readMem a := State.readMem_congr rfl rfl a
@[simp] theorem State.readMem_setRegs (s : State) (v : Vector Byte 16) (a : Nat) :
    (s.setRegs v).readMem a = s.readMem a := State.readMem_congr rfl rfl a
@[simp] theorem State.readMem_setStack (s : State) (n : Fin 17) (k : Vector Word 16) (a : Nat) :
    (s.setStack n k).readMem a = s.readMem a := State.readMem_congr rfl rfl a
@[simp] theorem State.readMem_setRedraw (s : State) (b : Bool) (a : Nat) :
    (s.setRedraw b).readMem a = s.readMem a := State.readMem_congr rfl rfl a
@[simp] theorem State.readMem_setDraws (s : State) (n : Nat) (a : Nat) :
    (s.setDraws n).readMem a = s.readMem a := State.readMem_congr rfl rfl a
@[simp] theorem State.readMem_writeV (s : State) (x : Nibble) (b : Byte) (a : Nat) :
    (s.writeV x b).readMem a = s.readMem a := State.readMem_congr rfl rfl a
@[simp] theorem State.readMem_writeFlag (s : State) (f : Bool) (a : Nat) :
    (s.writeFlag f).readMem a = s.readMem a := State.readMem_congr rfl rfl a
@[simp] theorem State.readMem_unfetch (s : State) (a : Nat) :
    s.unfetch.readMem a = s.readMem a := State.readMem_congr rfl rfl a
@[simp] theorem State.readMem_enterFault (s : State) (c : Fault) (w : Option Word) (a : Nat) :
    (s.enterFault c w).readMem a = s.readMem a := State.readMem_congr rfl rfl a
@[simp] theorem State.readMem_countDraw (s : State) (a : Nat) :
    s.countDraw.readMem a = s.readMem a := State.readMem_congr rfl rfl a
@[simp] theorem State.readMem_loadBlock (s : State) (x : Nibble) (b : Nat) (a : Nat) :
    (s.loadBlock x b).readMem a = s.readMem a := State.readMem_congr rfl rfl a

/-- A memory read after a write of consecutive bytes. -/
theorem State.readMem_writeBytes (s : State) (a b : Nat) (bytes : List Byte) :
    (s.writeBytes a bytes).readMem b =
      if h : a ≤ b ∧ b < a + bytes.length then bytes[b - a]'(by omega) else s.readMem b :=
  Memory.read_writeBytes bytes s.mem a b

@[simp] theorem State.length_readBytes (s : State) (a n : Nat) : (s.readBytes a n).length = n :=
  Memory.length_readBytes s.mem a n

@[simp] theorem State.getElem_readBytes (s : State) (a n j : Nat) (h : j < (s.readBytes a n).length) :
    (s.readBytes a n)[j] = s.readMem (a + j) :=
  Memory.getElem_readBytes s.mem a n j h

/-- `CheckRange` passes exactly when no touched address is above 0xFFF. -/
theorem checkRange_ok (a n : Nat) (h : n = 0 ∨ a + n ≤ 0x1000) : checkRange a n = .ok () := by
  rw [checkRange, if_neg (by omega)]

theorem checkRange_error (a n : Nat) (h : 0 < n) (h' : 0x1000 < a + n) :
    checkRange a n = .error .indexOutOfBounds := by
  rw [checkRange, if_pos (by omega)]

/-- What `CheckRange` can answer. -/
theorem checkRange_cases (a n : Nat) :
    ((n = 0 ∨ a + n ≤ 0x1000) ∧ checkRange a n = .ok ()) ∨
    (0 < n ∧ 0x1000 < a + n ∧ checkRange a n = .error .indexOutOfBounds) := by
  by_cases h : n = 0 ∨ a + n ≤ 0x1000
  · exact .inl ⟨h, checkRange_ok a n h⟩
  · exact .inr ⟨by omega, by omega, checkRange_error a n (by omega) (by omega)⟩

/-! ## The stack -/

theorem State.push_ok (s : State) (w : Word) (h : s.sp.val < 16) :
    s.push w = .ok (s.setStack ⟨s.sp.val + 1, by omega⟩ (s.stack.set s.sp.val w h)) := by
  rw [State.push, dif_pos h]

theorem State.push_full (s : State) (w : Word) (h : s.sp.val = 16) : s.push w = .error .stackOverflow := by
  rw [State.push, dif_neg (by omega)]

theorem State.pop_ok (s : State) (h : s.sp.val ≠ 0) :
    s.pop = .ok (s.stack[s.sp.val - 1]'(by omega), s.setStack ⟨s.sp.val - 1, by omega⟩ s.stack) := by
  rw [State.pop, dif_neg h]

theorem State.pop_empty (s : State) (h : s.sp.val = 0) : s.pop = .error .stackUnderflow := by
  rw [State.pop, dif_pos h]

/-! ## Keys -/

theorem State.keyAt_ok (s : State) (k : Byte) (h : k.toNat < 16) : s.keyAt k = .ok (s.key[k.toNat]'h) := by
  rw [State.keyAt, dif_pos h]

theorem State.keyAt_error (s : State) (k : Byte) (h : 16 ≤ k.toNat) : s.keyAt k = .error .keyIndexOutOfRange := by
  rw [State.keyAt, dif_neg (by omega)]

/-! ## Ending an instruction -/

@[simp] theorem finish_eq (redraw : Bool) (s : State) : finish redraw s = .next (s.setRedraw redraw) := rfl

@[simp] theorem attempt_ok (i : Instr) (s t : State) : attempt i s (.ok t) = .next t := rfl

@[simp] theorem attempt_error (i : Instr) (s : State) (c : Fault) :
    attempt i s (.error c) = .next (s.unfetch.enterFault c (some (encode i))) := rfl

/-- Everything an attempted instruction can do: it completes, or its fault is taken. -/
theorem attempt_cases {i : Instr} {s t : State} {r : Except Fault State} (h : attempt i s r = .next t) :
    r = .ok t ∨ ∃ c, r = .error c ∧ t = s.unfetch.enterFault c (some (encode i)) := by
  cases r with
  | ok u => exact .inl (by simpa using h)
  | error c => exact .inr ⟨c, rfl, by simpa using h.symm⟩

@[simp] theorem State.skipIf_true (s : State) : s.skipIf true = s.setPc (s.pc + 2) := rfl
@[simp] theorem State.skipIf_false (s : State) : s.skipIf false = s := rfl

/-- A skip changes `pc` at most. -/
theorem State.skipIf_eq (s : State) (b : Bool) :
    s.skipIf b = s.setPc (if b then s.pc + 2 else s.pc) := by
  cases b <;> rfl

/-- FX55 and FX65 change the index register at most. -/
@[simp] theorem State.advanceIdx_eq (s : State) (x : Nibble) : s.advanceIdx x = s.setIdx (s.nextIdx x) := rfl

@[simp] theorem State.nextIdx_writeBytes (s : State) (a : Nat) (bs : List Byte) (x : Nibble) :
    (s.writeBytes a bs).nextIdx x = s.nextIdx x := rfl

@[simp] theorem State.nextIdx_loadBlock (s : State) (a : Nat) (x y : Nibble) :
    (s.loadBlock x a).nextIdx y = s.nextIdx y := rfl

/-- The index register FX55 and FX65 leave, as a number. -/
theorem State.nextIdx_toNat (s : State) (x : Nibble) :
    (s.nextIdx x).toNat =
      if s.cfg.loadStoreIncrementsI then (s.idx.toNat + x.toNat + 1) % 65536 else s.idx.toNat := by
  unfold State.nextIdx
  split <;> simp [wrap16]

/-! ## Fetch -/

/-- Undoing a fetch restores the state. -/
@[simp] theorem State.unfetch_setPc (s : State) : (s.setPc (s.pc + 2)).unfetch = s := by
  simp [State.unfetch, State.setPc]

/-- The same in the form simp gives the literal. -/
@[simp] theorem State.unfetch_setPc_ofNat (s : State) : (s.setPc (s.pc + 2#16)).unfetch = s := s.unfetch_setPc

theorem State.fetch_ok (s : State) (h : s.pc.toNat < fetchLimit) :
    s.fetch = .ok (s.fetchWord, s.setPc (s.pc + 2)) := by
  rw [State.fetch, if_neg (by omega)]

theorem State.fetch_error (s : State) (h : fetchLimit ≤ s.pc.toNat) : s.fetch = .error .pcOutOfBounds := by
  rw [State.fetch, if_pos h]

end Sys2Proof.Machine
end

