-- ==== Sys2Proof/Laws/Step.lean ====
section
/-! SUPPORT. What one step can do, by the status it starts in (40_step_cycle.md R100), and how a list of operations runs. -/

namespace Sys2Proof.Machine

theorem step_faulted (s : State) (r : FaultRecord) (h : s.status = .faulted r) : step s = .next s := by
  simp [step, h, State.haltedStep]

theorem step_awaiting (s : State) (x : Nibble) (latch : Option (Fin 16)) (h : s.status = .awaitingKey x latch) :
    step s = .next (s.waitStep x latch) := by
  simp [step, h]

/-- Everything a running step can do: the fetch faults, decode faults, or the decoded instruction runs on the state with
`pc` advanced. -/
theorem step_running (s : State) (h : s.status = .running) :
    (fetchLimit ≤ s.pc.toNat ∧ step s = .next (s.enterFault .pcOutOfBounds none)) ∨
    (s.pc.toNat < fetchLimit ∧ (∃ e, decode s.fetchWord = .error e) ∧
      step s = .next (s.enterFault .illegalOpcode (some s.fetchWord))) ∨
    (s.pc.toNat < fetchLimit ∧ ∃ i, decode s.fetchWord = .ok i ∧ step s = exec i (s.setPc (s.pc + 2))) := by
  by_cases hp : s.pc.toNat < fetchLimit
  · cases hd : decode s.fetchWord with
    | error e => exact .inr (.inl ⟨hp, ⟨e, rfl⟩, by simp [step, h, s.fetch_ok hp, hd]⟩)
    | ok i => exact .inr (.inr ⟨hp, i, rfl, by simp [step, h, s.fetch_ok hp, hd]⟩)
  · have hp : fetchLimit ≤ s.pc.toNat := by omega
    exact .inl ⟨hp, by simp [step, h, s.fetch_error hp]⟩

@[simp] theorem runOps_nil (s : State) : runOps [] s = .next s := rfl

/-- One operation and then the rest. -/
theorem runOps_cons {op : BlockOp} {s t : State} (h : op.run s = .next t) (rest : List BlockOp) :
    runOps (op :: rest) s = runOps rest t := by
  simp [runOps, h]

end Sys2Proof.Machine
end

