-- ==== Sys2Proof/Laws/Exec.lean ====
section
/-! SUPPORT. For each instruction that can fault, everything it can do: it completes, with the state it leaves, or it takes its
fault. The other instructions have one outcome, which unfolding gives. -/

namespace Sys2Proof.Machine

/-- The fault an instruction takes on the state after its fetch. -/
def State.taken (s : State) (i : Instr) (c : Fault) : State := s.unfetch.enterFault c (some (encode i))

theorem execRet_cases (s : State) :
    (∃ _h : s.sp.val ≠ 0, execRet s = .next
      (((s.setStack ⟨s.sp.val - 1, by omega⟩ s.stack).setPc (s.stack[s.sp.val - 1]'(by omega))).setRedraw false)) ∨
    (s.sp.val = 0 ∧ execRet s = .next (s.taken .ret .stackUnderflow)) := by
  by_cases h : s.sp.val = 0
  · exact .inr ⟨h, by rw [execRet, s.pop_empty h]; rfl⟩
  · exact .inl ⟨h, by rw [execRet, s.pop_ok h]; rfl⟩

theorem execCall_cases (nnn : Addr12) (s : State) :
    (∃ h : s.sp.val < 16, execCall nnn s = .next
      (((s.setStack ⟨s.sp.val + 1, by omega⟩ (s.stack.set s.sp.val s.pc h)).setPc (addressOf nnn)).setRedraw false)) ∨
    (s.sp.val = 16 ∧ execCall nnn s = .next (s.taken (.call nnn) .stackOverflow)) := by
  by_cases h : s.sp.val < 16
  · exact .inl ⟨h, by rw [execCall, s.push_ok _ h]; rfl⟩
  · exact .inr ⟨by omega, by rw [execCall, s.push_full _ (by omega)]; rfl⟩

/-- What DXYN leaves when its bounds check passes. -/
def State.drawn (s : State) (x y n : Nibble) : State :=
  let r := plotSprite (s.readBytes s.idx.toNat n.toNat) (startColumn (s.readV x)) (startRow (s.readV y)) s.disp
  ((s.setDisp r.1).writeFlag r.2).setRedraw true

theorem execDrw_cases (x y n : Nibble) (s : State) :
    ((n.toNat = 0 ∨ s.idx.toNat + n.toNat ≤ 0x1000) ∧ execDrw x y n s = .next (s.drawn x y n)) ∨
    (0 < n.toNat ∧ 0x1000 < s.idx.toNat + n.toNat ∧
      execDrw x y n s = .next (s.taken (.drw x y n) .indexOutOfBounds)) := by
  rcases checkRange_cases s.idx.toNat n.toNat with ⟨h, e⟩ | ⟨h, h', e⟩
  · exact .inl ⟨h, by rw [execDrw, e]; rfl⟩
  · exact .inr ⟨h, h', by rw [execDrw, e]; rfl⟩

theorem execLdBVx_cases (x : Nibble) (s : State) :
    (s.idx.toNat + 3 ≤ 0x1000 ∧ execLdBVx x s = .next
      ((s.writeBytes s.idx.toNat (bcdDigits (s.readV x))).setRedraw false)) ∨
    (0x1000 < s.idx.toNat + 3 ∧ execLdBVx x s = .next (s.taken (.ldBVx x) .indexOutOfBounds)) := by
  rcases checkRange_cases s.idx.toNat 3 with ⟨h, e⟩ | ⟨h, h', e⟩
  · exact .inl ⟨by omega, by rw [execLdBVx, e]; rfl⟩
  · exact .inr ⟨h', by rw [execLdBVx, e]; rfl⟩

theorem execLdMemVx_cases (x : Nibble) (s : State) :
    (s.idx.toNat + (x.toNat + 1) ≤ 0x1000 ∧ execLdMemVx x s = .next
      (((s.writeBytes s.idx.toNat (s.readBlock x)).setIdx (s.nextIdx x)).setRedraw false)) ∨
    (0x1000 < s.idx.toNat + (x.toNat + 1) ∧
      execLdMemVx x s = .next (s.taken (.ldMemVx x) .indexOutOfBounds)) := by
  rcases checkRange_cases s.idx.toNat (blockLength x) with ⟨h, e⟩ | ⟨h, h', e⟩
  · exact .inl ⟨by simp only [blockLength] at h; omega, by rw [execLdMemVx, e]; rfl⟩
  · exact .inr ⟨h', by rw [execLdMemVx, e]; rfl⟩

theorem execLdVxMem_cases (x : Nibble) (s : State) :
    (s.idx.toNat + (x.toNat + 1) ≤ 0x1000 ∧ execLdVxMem x s = .next
      (((s.loadBlock x s.idx.toNat).setIdx (s.nextIdx x)).setRedraw false)) ∨
    (0x1000 < s.idx.toNat + (x.toNat + 1) ∧
      execLdVxMem x s = .next (s.taken (.ldVxMem x) .indexOutOfBounds)) := by
  rcases checkRange_cases s.idx.toNat (blockLength x) with ⟨h, e⟩ | ⟨h, h', e⟩
  · exact .inl ⟨by simp only [blockLength] at h; omega, by rw [execLdVxMem, e]; rfl⟩
  · exact .inr ⟨h', by rw [execLdVxMem, e]; rfl⟩

theorem execSkp_cases (x : Nibble) (s : State) :
    (∃ h : (s.readV x).toNat < 16, execSkp x s = .next
      ((s.setPc (if s.key[(s.readV x).toNat]'h then s.pc + 2 else s.pc)).setRedraw false)) ∨
    (16 ≤ (s.readV x).toNat ∧ execSkp x s = .next (s.taken (.skp x) .keyIndexOutOfRange)) := by
  by_cases h : (s.readV x).toNat < 16
  · exact .inl ⟨h, by rw [execSkp, s.keyAt_ok _ h, ← State.skipIf_eq]; rfl⟩
  · exact .inr ⟨by omega, by rw [execSkp, s.keyAt_error _ (by omega)]; rfl⟩

theorem execSknp_cases (x : Nibble) (s : State) :
    (∃ h : (s.readV x).toNat < 16, execSknp x s = .next
      ((s.setPc (if s.key[(s.readV x).toNat]'h then s.pc else s.pc + 2)).setRedraw false)) ∨
    (16 ≤ (s.readV x).toNat ∧ execSknp x s = .next (s.taken (.sknp x) .keyIndexOutOfRange)) := by
  by_cases h : (s.readV x).toNat < 16
  · refine .inl ⟨h, ?_⟩
    rw [execSknp, s.keyAt_ok _ h]
    cases s.key[(s.readV x).toNat] <;> rfl
  · exact .inr ⟨by omega, by rw [execSknp, s.keyAt_error _ (by omega)]; rfl⟩

/-- Whatever the instruction, the state it leaves has taken one of its faults, or has the status it started with, or has begun
to wait for a key. -/
theorem exec_status_cases (i : Instr) (s t : State) (h : exec i s = .next t) :
    (∃ c, t = s.taken i c ∧ c ≠ .pcOutOfBounds) ∨ t.status = s.status ∨
    (∃ x, i = .ldVxK x ∧ t.status = .awaitingKey x none) := by
  cases i
  case ret =>
    simp only [exec] at h
    rcases execRet_cases s with ⟨_, e⟩ | ⟨_, e⟩ <;> rw [e] at h <;> cases h
    · simp
    · exact .inl ⟨_, rfl, by simp⟩
  case call nnn =>
    simp only [exec] at h
    rcases execCall_cases nnn s with ⟨_, e⟩ | ⟨_, e⟩ <;> rw [e] at h <;> cases h
    · simp
    · exact .inl ⟨_, rfl, by simp⟩
  case drw x y n =>
    simp only [exec] at h
    rcases execDrw_cases x y n s with ⟨_, e⟩ | ⟨_, _, e⟩ <;> rw [e] at h <;> cases h
    · simp [State.drawn]
    · exact .inl ⟨_, rfl, by simp⟩
  case skp x =>
    simp only [exec] at h
    rcases execSkp_cases x s with ⟨_, e⟩ | ⟨_, e⟩ <;> rw [e] at h <;> cases h
    · simp
    · exact .inl ⟨_, rfl, by simp⟩
  case sknp x =>
    simp only [exec] at h
    rcases execSknp_cases x s with ⟨_, e⟩ | ⟨_, e⟩ <;> rw [e] at h <;> cases h
    · simp
    · exact .inl ⟨_, rfl, by simp⟩
  case ldBVx x =>
    simp only [exec] at h
    rcases execLdBVx_cases x s with ⟨_, e⟩ | ⟨_, e⟩ <;> rw [e] at h <;> cases h
    · simp
    · exact .inl ⟨_, rfl, by simp⟩
  case ldMemVx x =>
    simp only [exec] at h
    rcases execLdMemVx_cases x s with ⟨_, e⟩ | ⟨_, e⟩ <;> rw [e] at h <;> cases h
    · simp
    · exact .inl ⟨_, rfl, by simp⟩
  case ldVxMem x =>
    simp only [exec] at h
    rcases execLdVxMem_cases x s with ⟨_, e⟩ | ⟨_, e⟩ <;> rw [e] at h <;> cases h
    · simp [State.loadBlock]
    · exact .inl ⟨_, rfl, by simp⟩
  case ldVxK x => exact .inr (.inr ⟨x, rfl, by cases h; rfl⟩)
  all_goals (right; left; cases h; first | rfl | (simp only [State.skipIf_eq]; rfl))

end Sys2Proof.Machine
end

