-- ==== Sys2Proof/Laws/PerInstr.lean ====
section
/-! SUPPORT. The family MatchesTable: the word of every instruction has the fixed bits of its row of spec/opcode_table.json. -/

namespace Sys2Proof

/-- The "mask" and "match" of the instruction's row of spec/opcode_table.json. -/
def tableRow : Instr → Word × Word
  | .cls => (0xFFFF#16, 0x00E0#16)
  | .ret => (0xFFFF#16, 0x00EE#16)
  | .jp _ => (0xF000#16, 0x1000#16)
  | .call _ => (0xF000#16, 0x2000#16)
  | .seImm _ _ => (0xF000#16, 0x3000#16)
  | .sneImm _ _ => (0xF000#16, 0x4000#16)
  | .seReg _ _ => (0xF00F#16, 0x5000#16)
  | .ldImm _ _ => (0xF000#16, 0x6000#16)
  | .addImm _ _ => (0xF000#16, 0x7000#16)
  | .ldReg _ _ => (0xF00F#16, 0x8000#16)
  | .orReg _ _ => (0xF00F#16, 0x8001#16)
  | .andReg _ _ => (0xF00F#16, 0x8002#16)
  | .xorReg _ _ => (0xF00F#16, 0x8003#16)
  | .addReg _ _ => (0xF00F#16, 0x8004#16)
  | .subReg _ _ => (0xF00F#16, 0x8005#16)
  | .shr _ _ => (0xF00F#16, 0x8006#16)
  | .subn _ _ => (0xF00F#16, 0x8007#16)
  | .shl _ _ => (0xF00F#16, 0x800E#16)
  | .sneReg _ _ => (0xF00F#16, 0x9000#16)
  | .ldI _ => (0xF000#16, 0xA000#16)
  | .jpV0 _ => (0xF000#16, 0xB000#16)
  | .rnd _ _ => (0xF000#16, 0xC000#16)
  | .drw _ _ _ => (0xF000#16, 0xD000#16)
  | .skp _ => (0xF0FF#16, 0xE09E#16)
  | .sknp _ => (0xF0FF#16, 0xE0A1#16)
  | .ldVxDt _ => (0xF0FF#16, 0xF007#16)
  | .ldVxK _ => (0xF0FF#16, 0xF00A#16)
  | .ldDtVx _ => (0xF0FF#16, 0xF015#16)
  | .ldStVx _ => (0xF0FF#16, 0xF018#16)
  | .addIVx _ => (0xF0FF#16, 0xF01E#16)
  | .ldFVx _ => (0xF0FF#16, 0xF029#16)
  | .ldBVx _ => (0xF0FF#16, 0xF033#16)
  | .ldMemVx _ => (0xF0FF#16, 0xF055#16)
  | .ldVxMem _ => (0xF0FF#16, 0xF065#16)

/-- Mask 0xF000 keeps the family. -/
theorem and_F000 (w : Word) : w &&& 0xF000#16 = (fieldF w).zeroExtend 16 <<< 12 := by
  ext i hi
  simp [fieldF]
  interval_cases i <;> simp

/-- Mask 0xF00F keeps the family and N. -/
theorem and_F00F (w : Word) :
    w &&& 0xF00F#16 = (fieldF w).zeroExtend 16 <<< 12 ||| (fieldN w).zeroExtend 16 := by
  ext i hi
  simp [fieldF, fieldN]
  interval_cases i <;> simp

/-- Mask 0xF0FF keeps the family and NN. -/
theorem and_F0FF (w : Word) :
    w &&& 0xF0FF#16 = (fieldF w).zeroExtend 16 <<< 12 ||| (fieldNN w).zeroExtend 16 := by
  ext i hi
  simp [fieldF, fieldNN]
  interval_cases i <;> simp

namespace Laws.MatchesTable

/-- The word of the instruction has its table row's fixed bits. -/
def Statement (i : Instr) : Prop := encode i &&& (tableRow i).1 = (tableRow i).2

theorem cls : Statement .cls := rfl
theorem ret : Statement .ret := rfl
theorem jp (nnn : Addr12) : Statement (.jp nnn) := by simp [Statement, encode, tableRow, and_F000]
theorem call (nnn : Addr12) : Statement (.call nnn) := by simp [Statement, encode, tableRow, and_F000]
theorem seImm (x : Nibble) (nn : Byte) : Statement (.seImm x nn) := by simp [Statement, encode, tableRow, and_F000]
theorem sneImm (x : Nibble) (nn : Byte) : Statement (.sneImm x nn) := by simp [Statement, encode, tableRow, and_F000]
theorem seReg (x y : Nibble) : Statement (.seReg x y) := by simp [Statement, encode, tableRow, and_F00F]
theorem ldImm (x : Nibble) (nn : Byte) : Statement (.ldImm x nn) := by simp [Statement, encode, tableRow, and_F000]
theorem addImm (x : Nibble) (nn : Byte) : Statement (.addImm x nn) := by simp [Statement, encode, tableRow, and_F000]
theorem ldReg (x y : Nibble) : Statement (.ldReg x y) := by simp [Statement, encode, tableRow, and_F00F]
theorem orReg (x y : Nibble) : Statement (.orReg x y) := by simp [Statement, encode, tableRow, and_F00F]
theorem andReg (x y : Nibble) : Statement (.andReg x y) := by simp [Statement, encode, tableRow, and_F00F]
theorem xorReg (x y : Nibble) : Statement (.xorReg x y) := by simp [Statement, encode, tableRow, and_F00F]
theorem addReg (x y : Nibble) : Statement (.addReg x y) := by simp [Statement, encode, tableRow, and_F00F]
theorem subReg (x y : Nibble) : Statement (.subReg x y) := by simp [Statement, encode, tableRow, and_F00F]
theorem shr (x y : Nibble) : Statement (.shr x y) := by simp [Statement, encode, tableRow, and_F00F]
theorem subn (x y : Nibble) : Statement (.subn x y) := by simp [Statement, encode, tableRow, and_F00F]
theorem shl (x y : Nibble) : Statement (.shl x y) := by simp [Statement, encode, tableRow, and_F00F]
theorem sneReg (x y : Nibble) : Statement (.sneReg x y) := by simp [Statement, encode, tableRow, and_F00F]
theorem ldI (nnn : Addr12) : Statement (.ldI nnn) := by simp [Statement, encode, tableRow, and_F000]
theorem jpV0 (nnn : Addr12) : Statement (.jpV0 nnn) := by simp [Statement, encode, tableRow, and_F000]
theorem rnd (x : Nibble) (nn : Byte) : Statement (.rnd x nn) := by simp [Statement, encode, tableRow, and_F000]
theorem drw (x y n : Nibble) : Statement (.drw x y n) := by simp [Statement, encode, tableRow, and_F000]
theorem skp (x : Nibble) : Statement (.skp x) := by simp [Statement, encode, tableRow, and_F0FF]
theorem sknp (x : Nibble) : Statement (.sknp x) := by simp [Statement, encode, tableRow, and_F0FF]
theorem ldVxDt (x : Nibble) : Statement (.ldVxDt x) := by simp [Statement, encode, tableRow, and_F0FF]
theorem ldVxK (x : Nibble) : Statement (.ldVxK x) := by simp [Statement, encode, tableRow, and_F0FF]
theorem ldDtVx (x : Nibble) : Statement (.ldDtVx x) := by simp [Statement, encode, tableRow, and_F0FF]
theorem ldStVx (x : Nibble) : Statement (.ldStVx x) := by simp [Statement, encode, tableRow, and_F0FF]
theorem addIVx (x : Nibble) : Statement (.addIVx x) := by simp [Statement, encode, tableRow, and_F0FF]
theorem ldFVx (x : Nibble) : Statement (.ldFVx x) := by simp [Statement, encode, tableRow, and_F0FF]
theorem ldBVx (x : Nibble) : Statement (.ldBVx x) := by simp [Statement, encode, tableRow, and_F0FF]
theorem ldMemVx (x : Nibble) : Statement (.ldMemVx x) := by simp [Statement, encode, tableRow, and_F0FF]
theorem ldVxMem (x : Nibble) : Statement (.ldVxMem x) := by simp [Statement, encode, tableRow, and_F0FF]

end Laws.MatchesTable

end Sys2Proof
end

