-- ==== Sys2Proof/Tests/Slice0.lean ====
section
/-! SUPPORT. Tests. The expected results are those of spec/95_test_vectors.md (a test names its section) or are worked out by
hand from the rule a test cites; the words are written out from the patterns of 30_encoding.md R84. Every test is of one step
or one operation. After them, a witness for the hypotheses of every statement that has some. -/

namespace Sys2Proof.Tests

open Sys2Proof Sys2Proof.Machine

/-! ## Helpers -/

/-- The next state, or the given one where there is none. -/
def nextOr (o : StepOutcome) (s : State) : State :=
  match o with
  | .next t => t
  | _ => s

/-- One step of `s` with the word `w` placed where it fetches. -/
def stepped (s : State) (w : Nat) : State := nextOr (step (s.withFetchWord 16 w)) s

/-- `s` with some registers set. -/
def withV (s : State) (rs : List (Nibble × Byte)) : State := rs.foldl (fun t r => t.writeV r.1 r.2) s

/-- Reset with some registers set. -/
def regs (rs : List (Nibble × Byte)) : State := withV State.reset rs

/-- Reset with `I`, some registers and some bytes of memory at `I` set. -/
def ptr (i : Word) (rs : List (Nibble × Byte)) (bytes : List Byte) : State :=
  ((regs rs).setIdx i).writeBytes i.toNat bytes

/-- The three quirk flags set. -/
def quirky (s : State) (shift jump incr : Bool) : State :=
  { s with cfg := { s.cfg with shiftUsesVy := shift, jumpOffsetUsesVx := jump, loadStoreIncrementsI := incr } }

/-- The columns that are on in row `y`. -/
def lit (d : Display) (y : Nat) : List Nat := (List.range 64).filter fun x => d.pix x y

/-- Reset with the stack filled to depth `n`, entry `j` holding 0x300 + j. -/
def deep (n : Fin 17) : State := State.reset.setStack n (Vector.ofFn fun j => BitVec.ofNat 16 (0x300 + j.val))

/-- The key state in which exactly the listed keys are pressed. -/
def keysDown (ks : List Nat) : Keys := Vector.ofFn fun j => decide (j.val ∈ ks)

/-! ## WellFormed -/

/-- A program image of 3585 bytes is refused; one of 3584 passes (70_reset_and_hazards.md R264). -/
theorem test_image_too_large : imageWellFormed (List.replicate 3585 0) = false := by
  rw [imageWellFormed, List.length_replicate]
  decide

theorem test_image_of_the_largest_size : imageWellFormed (List.replicate 3584 0) = true := by
  rw [imageWellFormed, List.length_replicate]
  decide

/-- `Instr` has no ill-formed term: the operand types are the encoding's fields (R82). -/
theorem test_every_operand_is_well_formed : (Instr.drw 0xF 0xF 0xF).wellFormed = true := by decide

/-! ## Decode: a word of every row -/

theorem test_decode_family_0 :
    decode 0b0000000011100000#16 = .ok .cls ∧ decode 0b0000000011101110#16 = .ok .ret := by decide

theorem test_decode_jumps :
    decode 0b0001101010111100#16 = .ok (.jp 0xABC) ∧ decode 0b0010000100100011#16 = .ok (.call 0x123) ∧
    decode 0b1011001100000000#16 = .ok (.jpV0 0x300) := by decide

theorem test_decode_skips :
    decode 0b0011011101000010#16 = .ok (.seImm 7 0x42) ∧ decode 0b0100100000010001#16 = .ok (.sneImm 8 0x11) ∧
    decode 0b0101000100100000#16 = .ok (.seReg 1 2) ∧ decode 0b1001110100110000#16 = .ok (.sneReg 0xD 3) := by decide

theorem test_decode_immediates :
    decode 0b0110101001111111#16 = .ok (.ldImm 0xA 0x7F) ∧ decode 0b0111000011111111#16 = .ok (.addImm 0 0xFF) ∧
    decode 0b1010000100100011#16 = .ok (.ldI 0x123) ∧ decode 0b1100001100001111#16 = .ok (.rnd 3 0x0F) := by decide

theorem test_decode_family_8_moves_and_logic :
    decode 0b1000000100100000#16 = .ok (.ldReg 1 2) ∧ decode 0b1000000100100001#16 = .ok (.orReg 1 2) ∧
    decode 0b1000000100100010#16 = .ok (.andReg 1 2) ∧ decode 0b1000000100100011#16 = .ok (.xorReg 1 2) := by decide

theorem test_decode_family_8_arithmetic :
    decode 0b1000000100100100#16 = .ok (.addReg 1 2) ∧ decode 0b1000000100100101#16 = .ok (.subReg 1 2) ∧
    decode 0b1000000100100110#16 = .ok (.shr 1 2) ∧ decode 0b1000000100100111#16 = .ok (.subn 1 2) ∧
    decode 0b1000000100101110#16 = .ok (.shl 1 2) := by decide

theorem test_decode_draw : decode 0b1101101111000101#16 = .ok (.drw 0xB 0xC 5) := by decide

theorem test_decode_family_E :
    decode 0b1110010110011110#16 = .ok (.skp 5) ∧ decode 0b1110010110100001#16 = .ok (.sknp 5) := by decide

theorem test_decode_family_F_timers_and_keys :
    decode 0b1111001100000111#16 = .ok (.ldVxDt 3) ∧ decode 0b1111001100001010#16 = .ok (.ldVxK 3) ∧
    decode 0b1111001100010101#16 = .ok (.ldDtVx 3) ∧ decode 0b1111010000011000#16 = .ok (.ldStVx 4) := by decide

theorem test_decode_family_F_index_and_memory :
    decode 0b1111000000011110#16 = .ok (.addIVx 0) ∧ decode 0b1111101000101001#16 = .ok (.ldFVx 0xA) ∧
    decode 0b1111000000110011#16 = .ok (.ldBVx 0) ∧ decode 0b1111001001010101#16 = .ok (.ldMemVx 2) ∧
    decode 0b1111001001100101#16 = .ok (.ldVxMem 2) := by decide

/-- 95_test_vectors.md section 2.2: the illegal words it lists. -/
theorem test_decode_illegal_words :
    ([0x0000, 0x0123, 0x01E0, 0x0FFF, 0x5001, 0x5121, 0x900F, 0x8008, 0x800D, 0x800F, 0xE09F, 0xE0A2, 0xF000, 0xF0FF,
      0xF01F, 0xF030] : List Word).all (fun w => decide (decode w = .error (.illegalOpcode w))) = true := by decide

/-- 30_encoding.md R92 and R93: the bytes of CALL 0x210 are 22 10, the high byte first. -/
theorem test_bytes_are_big_endian :
    encodeBytes (.call 0x210) = [0x22, 0x10] ∧ decodeBytes [0x22, 0x10, 0x7F] = .ok (.call 0x210, [0x7F]) ∧
    decodeBytes [0x22] = .error .truncated := by decide

theorem test_decode_table_word :
    decodeTableWord 16 0x00EE = some .ret ∧ decodeTableWord 16 0xF265 = some (.ldVxMem 2) ∧
    decodeTableWord 16 0x5121 = none := by decide

/-! ## Step cycle (95_test_vectors.md section 2.1) -/

/-- A fetch at 0xFFE and at 0xFFF faults. -/
theorem test_fetch_limit :
    (step (State.reset.setPc 0xFFE)) = .next ((State.reset.setPc 0xFFE).setStatus
      (.faulted { cause := .pcOutOfBounds, pc := 0xFFE, word := none })) ∧
    (nextOr (step (State.reset.setPc 0xFFF)) State.reset).stepResult =
      .fault { cause := .pcOutOfBounds, pc := 0xFFF, word := none } := ⟨rfl, by decide⟩

/-- A word at 0xFFD runs; the next step faults. -/
theorem test_fetch_last_word :
    (stepped (State.reset.setPc 0xFFD) 0x6001).readV 0 = 1 ∧ (stepped (State.reset.setPc 0xFFD) 0x6001).pc = 0xFFF := by
  decide

/-- An odd `pc` fetches. -/
theorem test_fetch_odd :
    (stepped (State.reset.setPc 0x201) 0x6077).readV 0 = 0x77 ∧ (stepped (State.reset.setPc 0x201) 0x6077).pc = 0x203 := by
  decide

/-- From reset with no program the first step faults on the word 0, with code 2. -/
theorem test_first_step_from_reset :
    (nextOr (step State.reset) State.reset).stepResult =
      .fault { cause := .illegalOpcode, pc := 0x200, word := some 0 } ∧
    FaultRecord.code { cause := .illegalOpcode, pc := 0x200, word := some 0 } = 2 := by decide

/-! ## Control flow (95_test_vectors.md section 2.3) -/

theorem test_jp : (stepped State.reset 0x1FFE).pc = 0xFFE := by decide

theorem test_call :
    (stepped State.reset 0x2400).pc = 0x400 ∧ (stepped State.reset 0x2400).sp = 1 ∧
    (stepped State.reset 0x2400).stack[0] = 0x202 := by decide

/-- P4, step 17. -/
theorem test_call_overflow :
    (stepped (deep 16) 0x2200).stepResult = .fault { cause := .stackOverflow, pc := 0x200, word := some 0x2200 } ∧
    (stepped (deep 16) 0x2200).sp = 16 := by decide

theorem test_ret : (stepped (deep 16) 0x00EE).pc = 0x30F ∧ (stepped (deep 16) 0x00EE).sp = 15 := by decide

theorem test_ret_underflow :
    (stepped State.reset 0x00EE).stepResult = .fault { cause := .stackUnderflow, pc := 0x200, word := some 0xEE } ∧
    (stepped State.reset 0x00EE).pc = 0x200 := by decide

theorem test_skips_immediate :
    (stepped State.reset 0x3011).pc = 0x202 ∧ (stepped State.reset 0x3000).pc = 0x204 ∧
    (stepped State.reset 0x4011).pc = 0x204 ∧ (stepped State.reset 0x4000).pc = 0x202 := by decide

theorem test_skips_register :
    (stepped (regs [(1, 1), (2, 2)]) 0x9120).pc = 0x204 ∧ (stepped State.reset 0x9120).pc = 0x202 ∧
    (stepped State.reset 0x5120).pc = 0x204 ∧ (stepped (regs [(1, 1), (2, 2)]) 0x5120).pc = 0x202 := by decide

theorem test_jp_v0 :
    (stepped (regs [(0, 0x10), (3, 0x20)]) 0xB300).pc = 0x310 ∧
    (stepped (quirky (regs [(0, 0x10), (3, 0x20)]) false true false) 0xB300).pc = 0x320 := by decide

theorem test_jp_v0_is_not_masked : (stepped (regs [(0, 0xFF)]) 0xBFFF).pc = 0x10FE := by decide

/-! ## Registers and ALU (95_test_vectors.md W1, W3 to W5, W9 and section 2.4) -/

theorem test_ld_imm :
    (stepped State.reset 0x6005).readV 0 = 5 ∧ (stepped State.reset 0x6005).pc = 0x202 ∧
    (stepped State.reset 0x6A7F).readV 0xA = 0x7F := by decide

theorem test_add_imm :
    (stepped (regs [(0, 2), (0xF, 0x5A)]) 0x70FF).readV 0 = 1 ∧
    (stepped (regs [(0, 2), (0xF, 0x5A)]) 0x70FF).readV 0xF = 0x5A := by decide

theorem test_add_imm_on_VF : (stepped (regs [(0xF, 2)]) 0x7FFF).readV 0xF = 1 := by decide

theorem test_ld_reg : (stepped (regs [(1, 0x12), (2, 0x34)]) 0x8120).readV 1 = 0x34 := by decide

theorem test_or :
    (stepped (regs [(1, 0x0F), (2, 0xF0), (0xF, 7)]) 0x8121).readV 1 = 0xFF ∧
    (stepped (regs [(1, 0x0F), (2, 0xF0), (0xF, 7)]) 0x8121).readV 0xF = 7 := by decide

theorem test_or_on_VF : (stepped (regs [(2, 0xF0), (0xF, 7)]) 0x8F21).readV 0xF = 0xF7 := by decide

theorem test_and : (stepped (regs [(1, 0xCC), (2, 0xAA)]) 0x8122).readV 1 = 0x88 := by decide

theorem test_xor : (stepped (regs [(1, 0xCC), (2, 0xAA)]) 0x8123).readV 1 = 0x66 := by decide

/-- W4. -/
theorem test_add_reg :
    (stepped (regs [(0, 0xFF), (1, 1)]) 0x8014).readV 0 = 0 ∧ (stepped (regs [(0, 0xFF), (1, 1)]) 0x8014).readV 0xF = 1 ∧
    (stepped (regs [(0, 0x7F), (1, 1)]) 0x8014).readV 0 = 0x80 ∧
    (stepped (regs [(0, 0x7F), (1, 1)]) 0x8014).readV 0xF = 0 := by decide

/-- The flag is written last (X = 15), and the old VF is the operand (Y = 15). -/
theorem test_add_reg_on_VF :
    (stepped (regs [(0xF, 0x10), (1, 0x20)]) 0x8F14).readV 0xF = 0 ∧
    (stepped (regs [(0, 0xFF), (0xF, 1)]) 0x80F4).readV 0 = 0 ∧
    (stepped (regs [(0, 0xFF), (0xF, 1)]) 0x80F4).readV 0xF = 1 := by decide

/-- W5. -/
theorem test_sub_reg :
    (stepped (regs [(0, 0), (1, 1)]) 0x8015).readV 0 = 0xFF ∧ (stepped (regs [(0, 0), (1, 1)]) 0x8015).readV 0xF = 0 ∧
    (stepped (regs [(0, 10), (1, 3)]) 0x8015).readV 0 = 7 ∧
    (stepped (regs [(0, 5), (1, 5)]) 0x8015).readV 0xF = 1 := by decide

theorem test_sub_reg_on_VF : (stepped (regs [(0xF, 5), (1, 3)]) 0x8F15).readV 0xF = 1 := by decide

/-- W5. -/
theorem test_subn :
    (stepped (regs [(0, 10), (1, 3)]) 0x8017).readV 0 = 0xF9 ∧ (stepped (regs [(0, 10), (1, 3)]) 0x8017).readV 0xF = 0 ∧
    (stepped (regs [(0, 0), (1, 1)]) 0x8017).readV 0 = 1 ∧
    (stepped (regs [(0, 5), (1, 5)]) 0x8017).readV 0xF = 1 := by decide

/-- W9. -/
theorem test_shr :
    (stepped (regs [(0, 5), (1, 0x80)]) 0x8016).readV 0 = 2 ∧ (stepped (regs [(0, 5), (1, 0x80)]) 0x8016).readV 0xF = 1 ∧
    (stepped (quirky (regs [(0, 5), (1, 0x80)]) true false false) 0x8016).readV 0 = 0x40 ∧
    (stepped (quirky (regs [(0, 5), (1, 0x80)]) true false false) 0x8016).readV 0xF = 0 := by decide

/-- W9. -/
theorem test_shl :
    (stepped (regs [(0, 5), (1, 0x80)]) 0x801E).readV 0 = 0x0A ∧
    (stepped (regs [(0, 5), (1, 0x80)]) 0x801E).readV 0xF = 0 ∧
    (stepped (quirky (regs [(0, 5), (1, 0x80)]) true false false) 0x801E).readV 0 = 0 ∧
    (stepped (quirky (regs [(0, 5), (1, 0x80)]) true false false) 0x801E).readV 0xF = 1 := by decide

theorem test_shifts_on_VF :
    (stepped (regs [(0xF, 3)]) 0x8FF6).readV 0xF = 1 ∧ (stepped (regs [(0xF, 0x80)]) 0x8FFE).readV 0xF = 1 := by decide

/-- C300: V3 = 0 whatever the draw. -/
theorem test_rnd_masked_to_nothing (s : State) (t : State) (h : exec (.rnd 3 0) s = .next t) : t.readV 3 = 0 := by
  cases h
  show (State.writeV _ _ _).v[3] = 0
  simp [State.writeV, State.setRegs]

/-! ## Index register and memory (95_test_vectors.md section 2.5) -/

theorem test_ld_i : (stepped State.reset 0xA123).idx = 0x0123 := by decide

theorem test_add_i :
    (stepped (ptr 0x0FFF [(0, 1)] []) 0xF01E).idx = 0x1000 ∧ (stepped (ptr 0x0FFF [(0, 1)] []) 0xF01E).readV 0xF = 1 ∧
    (stepped (ptr 0x0FF0 [(0, 0xF), (0xF, 9)] []) 0xF01E).readV 0xF = 0 := by decide

theorem test_add_i_wraps_and_reads_VF :
    (stepped (ptr 0xFFFF [(0, 1)] []) 0xF01E).idx = 0 ∧ (stepped (ptr 0xFFFF [(0, 1)] []) 0xF01E).readV 0xF = 0 ∧
    (stepped (ptr 0x0FFE [(0xF, 1)] []) 0xFF1E).idx = 0x0FFF ∧
    (stepped (ptr 0x0FFE [(0xF, 1)] []) 0xFF1E).readV 0xF = 0 := by decide

theorem test_ld_f :
    (stepped State.reset 0xF029).idx = 0x050 ∧ (stepped (regs [(0, 15)]) 0xF029).idx = 0x09B ∧
    (stepped (regs [(0, 255)]) 0xF029).idx = 0x54B := by decide

theorem test_bcd :
    (stepped (ptr 0x300 [(0, 255)] []) 0xF033).readBytes 0x300 4 = [2, 5, 5, 0] ∧
    (stepped (ptr 0xFFD [(0, 123)] []) 0xF033).readBytes 0xFFD 3 = [1, 2, 3] := by decide

theorem test_bcd_out_of_bounds :
    (stepped (ptr 0xFFE [(0, 1)] []) 0xF033).stepResult =
      .fault { cause := .indexOutOfBounds, pc := 0x200, word := some 0xF033 } ∧
    (stepped (ptr 0xFFE [(0, 1)] []) 0xF033).mem = [(0x200, 0xF0), (0x201, 0x33)] := by decide

theorem test_store_block :
    (stepped (ptr 0x300 [(0, 1), (1, 2), (2, 3), (3, 4)] []) 0xF255).readBytes 0x300 4 = [1, 2, 3, 0] ∧
    (stepped (ptr 0x300 [(0, 1)] []) 0xF255).idx = 0x300 ∧
    (stepped (quirky (ptr 0x300 [(0, 1)] []) false false true) 0xF255).idx = 0x303 := by decide

theorem test_store_block_at_the_top :
    (stepped (quirky (ptr 0xFF0 [(0xF, 9)] []) false false true) 0xFF55).idx = 0x1000 ∧
    (stepped (ptr 0xFF0 [(0xF, 9)] []) 0xFF55).readMem 0xFFF = 9 ∧
    (stepped (ptr 0xFF1 [] []) 0xFF55).stepResult =
      .fault { cause := .indexOutOfBounds, pc := 0x200, word := some 0xFF55 } := by decide

theorem test_load_block :
    (stepped (ptr 0x300 [(3, 7)] [1, 2, 3, 4]) 0xF265).readV 0 = 1 ∧
    (stepped (ptr 0x300 [(3, 7)] [1, 2, 3, 4]) 0xF265).readV 2 = 3 ∧
    (stepped (ptr 0x300 [(3, 7)] [1, 2, 3, 4]) 0xF265).readV 3 = 7 := by decide

theorem test_load_block_at_the_top :
    (stepped (quirky (ptr 0xFFF [] [0x5A]) false false true) 0xF065).readV 0 = 0x5A ∧
    (stepped (quirky (ptr 0xFFF [] [0x5A]) false false true) 0xF065).idx = 0x1000 := by decide

/-- Writing the byte an unlisted address reads as takes it off the list (log entry 12). -/
theorem test_memory_is_canonical :
    ((State.reset.writeBytes 0x050 [0x00]).writeBytes 0x050 [0xF0]).mem = [] ∧
    (State.reset.writeBytes 0x050 [0x00]).mem = [(0x050, 0)] := by decide

/-! ## Display (95_test_vectors.md W2, W6, W7 and section 2.6) -/

theorem test_cls :
    lit (stepped ((regs [(0xF, 9)]).setDisp (Display.clear.setPix 5 5 true)) 0x00E0).disp 5 = [] ∧
    (stepped (regs [(0xF, 9)]) 0x00E0).readV 0xF = 9 ∧ (stepped State.reset 0x00E0).stepResult = .ok true := by decide

/-- W2b, step 2: rows of the glyph 0 of the default font, and the row below it; W7: clipping on the right; section 2.6:
clipping at the bottom without a wrap to the top, and the start that wraps (66 mod 64, 33 mod 32). -/
theorem test_draw_pixels :
    lit (stepped (ptr 0x050 [] []) 0xD005).disp 0 = [0, 1, 2, 3] ∧
    lit (stepped (ptr 0x050 [] []) 0xD005).disp 1 = [0, 3] ∧ lit (stepped (ptr 0x050 [] []) 0xD005).disp 5 = [] ∧
    lit (stepped (ptr 0x300 [(0, 60)] [0xFF]) 0xD011).disp 0 = [60, 61, 62, 63] ∧
    lit (stepped (ptr 0x300 [(1, 30)] [0x80, 0x80, 0x80, 0x80]) 0xD014).disp 31 = [0] ∧
    lit (stepped (ptr 0x300 [(1, 30)] [0x80, 0x80, 0x80, 0x80]) 0xD014).disp 0 = [] ∧
    lit (stepped (ptr 0x300 [(0, 66), (1, 33)] [0x80]) 0xD011).disp 1 = [2] := by decide +kernel

/-- W6, the middle row: (0,0) is on before the draw. Section 2.6: VF's old value is the coordinate; N = 0 reads nothing and
checks nothing; the bounds check counts clipped rows. -/
theorem test_draw_flag_and_bounds :
    lit (stepped ((ptr 0x300 [] [0xC0]).setDisp (Display.clear.setPix 0 0 true)) 0xD011).disp 0 = [1] ∧
    (stepped ((ptr 0x300 [] [0xC0]).setDisp (Display.clear.setPix 0 0 true)) 0xD011).readV 0xF = 1 ∧
    lit (stepped (ptr 0x300 [(0xF, 5), (1, 2)] [0x80]) 0xDF11).disp 2 = [5] ∧
    (stepped (ptr 0x300 [(0xF, 5), (1, 2)] [0x80]) 0xDF11).readV 0xF = 0 ∧
    (stepped (ptr 0xFFFF [(0xF, 1)] []) 0xD000).stepResult = .ok true ∧
    (stepped (ptr 0xFFE [(1, 31), (0xF, 7)] []) 0xD013).stepResult =
      .fault { cause := .indexOutOfBounds, pc := 0x200, word := some 0xD013 } ∧
    (stepped (ptr 0xFFE [(1, 31), (0xF, 7)] []) 0xD013).readV 0xF = 7 := by decide +kernel

/-! ## Timers and keys (95_test_vectors.md section 2.7) -/

theorem test_tick :
    ((State.reset.setDt 2).setSt 1).tickTimers.dt = 1 ∧ ((State.reset.setDt 2).setSt 1).tickTimers.st = 0 ∧
    State.reset.tickTimers.dt = 0 ∧ State.reset.tickTimers.st = 0 := by decide

theorem test_ld_vx_dt : (stepped (State.reset.setDt 0x3C) 0xF307).readV 3 = 0x3C := by decide

theorem test_ld_dt_vx : (stepped (regs [(3, 0x3C)]) 0xF315).dt = 0x3C := by decide

theorem test_ld_st_vx : (stepped (regs [(4, 2)]) 0xF418).soundValue = 2 := by decide

theorem test_skp :
    (stepped ((regs [(5, 0xA)]).setKey (keysDown [0xA])) 0xE59E).pc = 0x204 ∧
    (stepped (regs [(0, 0x10)]) 0xE09E).stepResult =
      .fault { cause := .keyIndexOutOfRange, pc := 0x200, word := some 0xE09E } := by decide

theorem test_sknp :
    (stepped (regs [(0, 0xF)]) 0xE0A1).pc = 0x204 ∧
    (stepped ((regs [(5, 0xA)]).setKey (keysDown [0xA])) 0xE5A1).pc = 0x202 := by decide

theorem test_ld_vx_k :
    (stepped (State.reset.setPc 0x220) 0xF30A).pc = 0x220 ∧
    (stepped (State.reset.setPc 0x220) 0xF30A).status = .awaitingKey 3 none := by decide

/-- The least new press is latched; a held key is no press; a full latch is kept. -/
theorem test_set_keys :
    ((State.reset.setStatus (.awaitingKey 3 none)).setKeys (keysDown [4, 9])).status = .awaitingKey 3 (some 4) ∧
    (((State.reset.setStatus (.awaitingKey 3 none)).setKey (keysDown [4])).setKeys (keysDown [4])).status =
      .awaitingKey 3 none ∧
    ((State.reset.setStatus (.awaitingKey 3 (some 4))).setKeys (keysDown [1])).status = .awaitingKey 3 (some 4) := by
  decide

/-- The step that completes the wait. -/
theorem test_wait_completes :
    (nextOr (step (State.reset.setStatus (.awaitingKey 3 (some 4)))) State.reset).readV 3 = 4 ∧
    (nextOr (step (State.reset.setStatus (.awaitingKey 3 (some 4)))) State.reset).pc = 0x202 ∧
    (nextOr (step (State.reset.setStatus (.awaitingKey 3 (some 4)))) State.reset).status = .running := by decide

/-- 70_reset_and_hazards.md R263: a load puts the program at 0x200. -/
theorem test_load :
    (State.reset.load [0x60, 0x05]).2.fetchWord = 0x6005 ∧ (State.reset.load [0x60, 0x05]).1 = .loaded := by decide

/-! ## Witnesses: for every statement with hypotheses, states and operands that meet all of them, and a boundary value of each
clause -/

/-- Reset with a word placed at `pc`. -/
def holding (pc : Word) (w : Nat) : State := (State.reset.setPc pc).withFetchWord 16 w

/-- A faulted machine. -/
def stopped : State := State.reset.enterFault .illegalOpcode (some 0)

theorem witness_DecodeOfEncodeIsIdentity : (Instr.drw 0xF 0xF 0xF).wellFormed = true := by decide

theorem witness_EncodeOfDecodeIsIdentity : decode 0xDFFF = .ok (.drw 0xF 0xF 0xF) := by decide

theorem witness_DecoderFollowsOpcodeTable :
    (opcodeRows.any fun row => decide ((0xFF65 : Word) &&& row.1 = row.2.1)) = true ∧
    (opcodeRows.all fun row => decide ((0xFF66 : Word) &&& row.1 ≠ row.2.1)) = true := by decide

theorem witness_IllegalWordsAreThoseListed :
    (holding 0xFFD 0x5121).status = .running ∧ (holding 0xFFD 0x5121).pc.toNat < 0xFFE ∧ illegalByFamily 0x5121 ∧
    wordOfBytes ((holding 0xFFD 0x5121).readMem 0xFFD) ((holding 0xFFD 0x5121).readMem 0xFFE) = 0x5121 :=
  ⟨by decide, by decide, .inr (.inl (by decide)), by decide⟩

theorem witness_IllegalWordsAreThoseListed_families :
    illegalByFamily 0x0FFF ∧ illegalByFamily 0x5FFF ∧ illegalByFamily 0x8FF8 ∧ illegalByFamily 0x9FF1 ∧
    illegalByFamily 0xEFA2 ∧ illegalByFamily 0xFF66 :=
  ⟨.inl (by decide), .inr (.inl (by decide)), .inr (.inr (.inl (by decide))), .inr (.inr (.inr (.inl (by decide)))),
    .inr (.inr (.inr (.inr (.inl (by decide))))), .inr (.inr (.inr (.inr (.inr (by decide)))))⟩

theorem witness_StepRunsDecodedInstruction :
    (holding 0xFFD 0x6001).status = .running ∧ (holding 0xFFD 0x6001).pc.toNat < 0xFFE ∧
    decode (wordOfBytes ((holding 0xFFD 0x6001).readMem 0xFFD) ((holding 0xFFD 0x6001).readMem 0xFFE)) =
      .ok (.ldImm 0 1) ∧ (Instr.ldImm 0 1).wellFormed = true := by decide

theorem witness_FetchPastTheLimitFaults :
    (State.reset.setPc 0xFFE).status = .running ∧ 0xFFE ≤ (State.reset.setPc 0xFFE).pc.toNat := by decide

/-- Every cause is due in some running state, and in some state none is. -/
theorem witness_FaultsAreExactlyThoseListed :
    (State.reset.setPc 0xFFE).faultDue = some .pcOutOfBounds ∧ State.reset.faultDue = some .illegalOpcode ∧
    ((deep 16).withFetchWord 16 0x2200).faultDue = some .stackOverflow ∧
    (holding 0x200 0x00EE).faultDue = some .stackUnderflow ∧
    ((regs [(0, 0x10)]).withFetchWord 16 0xE09E).faultDue = some .keyIndexOutOfRange ∧
    ((regs [(0, 0x10)]).withFetchWord 16 0xE0A1).faultDue = some .keyIndexOutOfRange ∧
    (holding 0x200 0x6001).faultDue = none ∧ State.reset.status = .running := by decide

theorem witness_FaultsAreExactlyThoseListed_index :
    ((ptr 0xFFE [] []).withFetchWord 16 0xF033).faultDue = some .indexOutOfBounds ∧
    ((ptr 0xFF1 [] []).withFetchWord 16 0xFF55).faultDue = some .indexOutOfBounds ∧
    ((ptr 0xFF1 [] []).withFetchWord 16 0xFF65).faultDue = some .indexOutOfBounds ∧
    ((ptr 0xFFF [] []).withFetchWord 16 0xD002).faultDue = some .indexOutOfBounds ∧
    ((ptr 0xFFF [] []).withFetchWord 16 0xD001).faultDue = none ∧
    ((ptr 0xFFF [] []).withFetchWord 16 0xD000).faultDue = none := by decide

theorem witness_CallPushesReturnAddress : (deep 0).sp.val < 16 ∧ (deep 15).sp.val < 16 ∧ (deep 16).sp.val = 16 := by
  decide

theorem witness_ReturnPopsTheStack :
    (deep 1).sp.val = (0 : Fin 16).val + 1 ∧ (deep 16).sp.val = (15 : Fin 16).val + 1 ∧ (deep 0).sp.val = 0 := by decide

/-- The state the CALL leaves is itself a state with its stack. -/
theorem witness_ReturnUndoesCall : (deep 15).sp.val < 16 ∧
    (nextOr (exec (.call 0x210) (deep 15)) (deep 15)).sp = (16 : Fin 17) := by decide

/-- P4: CALL 0x200 at 0x200, from an empty stack; and from a full one, where no call is left. -/
theorem witness_SixteenNestedCallsThenOverflow :
    (holding 0x200 0x2200).status = .running ∧
    (holding 0x200 0x2200).sp.val + (List.replicate 16 (0x200 : Addr12)).length = 16 ∧
    (holding 0x200 0x2200).callChain (holding 0x200 0x2200).pc (List.replicate 16 0x200 ++ [0x200]) = true ∧
    ((deep 16).withFetchWord 16 0x2200).status = .running ∧
    ((deep 16).withFetchWord 16 0x2200).sp.val + ([] : List Addr12).length = 16 ∧
    ((deep 16).withFetchWord 16 0x2200).callChain 0x200 ([] ++ [0x200]) = true := by decide +kernel

theorem witness_ShiftsSetTheBitShiftedOut :
    (0x80 : Byte) = (if (quirky (regs [(0, 5), (1, 0x80)]) true false false).cfg.shiftUsesVy
      then (quirky (regs [(0, 5), (1, 0x80)]) true false false).readV 1
      else (quirky (regs [(0, 5), (1, 0x80)]) true false false).readV 0) ∧
    (5 : Byte) = (if (regs [(0, 5), (1, 0x80)]).cfg.shiftUsesVy
      then (regs [(0, 5), (1, 0x80)]).readV 1 else (regs [(0, 5), (1, 0x80)]).readV 0) := by decide

theorem witness_BcdStoresThreeDigits :
    (ptr 0xFFD [] []).idx.toNat + 2 ≤ 0xFFF ∧ 0xFFF < (ptr 0xFFE [] []).idx.toNat + 2 := by decide

theorem witness_StoreBlockWritesRegisters :
    (ptr 0xFF0 [] []).idx.toNat + (0xF : Nibble).toNat ≤ 0xFFF ∧ 0xFFF < (ptr 0xFF1 [] []).idx.toNat + (0xF : Nibble).toNat ∧
    (0xF : Nibble).toNat ≤ (0xF : Nibble).toNat := by decide

theorem witness_LoadBlockReadsRegisters :
    (ptr 0xFFF [] []).idx.toNat + (0 : Nibble).toNat ≤ 0xFFF ∧ 0xFFF < (ptr 0x1000 [] []).idx.toNat + (0 : Nibble).toNat := by
  decide

/-- The state between the store and the load may be the store's own next state. -/
theorem witness_LoadAfterStoreRestoresBlock :
    (ptr 0xFF0 [] []).idx.toNat + (0xF : Nibble).toNat ≤ 0xFFF ∧
    (nextOr (exec (.ldMemVx 0xF) (ptr 0xFF0 [] [])) State.reset).idx = (ptr 0xFF0 [] []).idx := by decide

theorem witness_DrawXorsThePixelsUnderTheSprite :
    ((0 : Nibble).toNat = 0 ∨ (ptr 0xFFFF [] []).idx.toNat + (0 : Nibble).toNat ≤ 0x1000) ∧
    ((0xF : Nibble).toNat = 0 ∨ (ptr 0xFF1 [] []).idx.toNat + (0xF : Nibble).toNat ≤ 0x1000) ∧
    2 = ((regs [(0, 66), (1, 33)]).readV 0).toNat % 64 ∧ 1 = ((regs [(0, 66), (1, 33)]).readV 1).toNat % 32 := by decide

/-- Both cases of the collision flag: one pixel on under a set bit, and none. -/
theorem witness_DrawXorsThePixelsUnderTheSprite_flag :
    Display.pix ((ptr 0x300 [] [0xC0]).setDisp (Display.clear.setPix 0 0 true)).disp 0 0 = true ∧
    (ptr 0x300 [] [0xC0]).spriteBit 0 0 1 0 0 = true ∧ (ptr 0x300 [] [0xC0]).spriteBit 0 0 1 2 0 = false ∧
    (ptr 0x300 [] [0xC0]).disp = Display.clear := by decide

theorem witness_DrawPastMemoryFaults :
    (1 : Nibble).toNat ≠ 0 ∧ 0x1000 < (ptr 0x1000 [] []).idx.toNat + (1 : Nibble).toNat ∧
    (0xF : Nibble).toNat ≠ 0 ∧ 0x1000 < (ptr 0xFF2 [] []).idx.toNat + (0xF : Nibble).toNat := by decide

/-- X = Y = 0, so that the flag is neither coordinate. -/
theorem witness_DrawTwiceRestoresTheDisplay :
    ((1 : Nibble).toNat = 0 ∨ (ptr 0x300 [] [0xC0]).idx.toNat + (1 : Nibble).toNat ≤ 0x1000) ∧
    (nextOr (exec (.drw 0 0 1) (ptr 0x300 [] [0xC0])) State.reset).readV 0 = (ptr 0x300 [] [0xC0]).readV 0 := by decide

/-- Not faulted: running, and waiting. Faulted: stopped. -/
theorem witness_TickDecrementsBothTimers :
    (∀ r, State.reset.status ≠ .faulted r) ∧ (∀ r, (State.reset.setStatus (.awaitingKey 3 none)).status ≠ .faulted r) ∧
    stopped.status = .faulted { cause := .illegalOpcode, pc := 0x200, word := some 0 } :=
  ⟨fun _ h => (by cases h), fun _ h => (by cases h), rfl⟩

theorem witness_KeySkipsReadTheKeyState :
    ((regs [(0, 15)]).readV 0).toNat < 16 ∧ 15 < ((regs [(0, 16)]).readV 0).toNat := by decide

theorem witness_WaitingStepCompletesOnTheLatch :
    (State.reset.setStatus (.awaitingKey 3 none)).status = .awaitingKey 3 none ∧
    (State.reset.setStatus (.awaitingKey 0xF (some 15))).status = .awaitingKey 0xF (some 15) := by decide

/-- Key 4 was up and is down and no smaller key is newly down; with the key state unchanged no key is newly down; a full
latch is not an empty one. -/
theorem witness_SetKeysLatchesTheLeastNewPress :
    ((keysDown [4, 9])[(4 : Fin 16)] = true ∧ State.reset.key[(4 : Fin 16)] = false ∧
      ∀ j : Fin 16, j < 4 → ¬((keysDown [4, 9])[j] = true ∧ State.reset.key[j] = false)) ∧
    (∀ i : Fin 16, ¬((keysDown [4])[i] = true ∧ (State.reset.setKey (keysDown [4])).key[i] = false)) ∧
    (∀ x, (State.reset.setStatus (.awaitingKey 3 (some 4))).status ≠ .awaitingKey x none) :=
  ⟨by decide, by decide, fun _ h => (by cases h)⟩

theorem witness_SetKeysLatchesTheLeastNewPress_statuses :
    (∀ r, State.reset.status ≠ .faulted r) ∧ (State.reset.setStatus (.awaitingKey 3 none)).status = .awaitingKey 3 none ∧
    stopped.status = .faulted { cause := .illegalOpcode, pc := 0x200, word := some 0 } :=
  ⟨fun _ h => (by cases h), rfl, rfl⟩

/-- P5's machine, one wait step and one tick, then keys 3 and 7. -/
theorem witness_KeyWaitEndsWithTheKey :
    (holding 0x200 0xF50A).status = .running ∧ (holding 0x200 0xF50A).pc.toNat < 0xFFE ∧
    decode (wordOfBytes ((holding 0x200 0xF50A).readMem 0x200) ((holding 0x200 0xF50A).readMem 0x201)) = .ok (.ldVxK 5) ∧
    (∀ op ∈ [BlockOp.step, BlockOp.tickTimers], op = .step ∨ op = .tickTimers) ∧
    (keysDown [3, 7])[(3 : Fin 16)] = true ∧ (holding 0x200 0xF50A).key[(3 : Fin 16)] = false ∧
    (∀ j : Fin 16, j < 3 → ¬((keysDown [3, 7])[j] = true ∧ (holding 0x200 0xF50A).key[j] = false)) :=
  ⟨by decide, by decide, by decide, by decide, by decide, by decide, by decide⟩

theorem witness_FaultingStepChangesOnlyStatus :
    State.reset.status = .running ∧ step State.reset = .next stopped ∧
    stopped.status = .faulted { cause := .illegalOpcode, pc := 0x200, word := some 0 } := ⟨rfl, rfl, rfl⟩

theorem witness_FaultedMachineIsFrozen :
    stopped.status = .faulted { cause := .illegalOpcode, pc := 0x200, word := some 0 } := rfl

/-- A state that meets the invariant, with a step that completes. -/
theorem witness_StepKeepsTheInvariant :
    State.reset.Inv ∧ step State.reset = .next stopped :=
  ⟨⟨Memory.wf_nil, by decide, by decide, fun _ _ h => (by cases h), fun _ h => (by cases h)⟩, rfl⟩

/-- A waiting machine that meets the invariant, and so does a faulted one. -/
theorem witness_Inv_in_the_other_statuses :
    (State.reset.setStatus (.awaitingKey 3 none)).Inv ∧ stopped.Inv :=
  ⟨⟨Memory.wf_nil, by decide, by decide, fun _ _ _ => (by decide), fun _ h => (by cases h)⟩,
    ⟨Memory.wf_nil, by decide, by decide, fun _ _ h => (by cases h),
      fun r h => (by cases h; exact ⟨rfl, fun e => (by cases e), fun _ => ⟨by decide, by decide⟩⟩)⟩⟩

theorem witness_EveryInterleavingKeepsTheInvariant :
    ∃ t, State.reset.Inv ∧ runOps [.load [0x12, 0x00], .step, .tickTimers, .step] State.reset = .next t :=
  ⟨_, witness_StepKeepsTheInvariant.1, rfl⟩

theorem witness_ConstructLeavesTheResetValues : State.reset = State.construct resetConfig := rfl

theorem witness_ConfigurationNeverChanges :
    ∃ t, runOps [.load [0x12, 0x00], .step, .setKeys (keysDown [4])] State.reset = .next t := ⟨_, rfl⟩

/-- A step that runs FX15, and one that runs FX18. -/
theorem witness_StepsNeverAdvanceTheTimers :
    (∃ t, step (holding 0x200 0xF315) = .next t) ∧ ∃ t, step (holding 0x200 0xF418) = .next t := ⟨⟨_, rfl⟩, ⟨_, rfl⟩⟩

/-- A step that returns 1, and one that returns 0. -/
theorem witness_RedrawExactlyWhenTheDisplayIsWritten :
    (∃ t, step (holding 0x200 0x00E0) = .next t ∧ t.stepResult = .ok true) ∧
    ∃ t, step (holding 0x200 0x6001) = .next t ∧ t.stepResult = .ok false := ⟨⟨_, rfl, rfl⟩, ⟨_, rfl, rfl⟩⟩

/-- A next state of exec, one of them a fault; a register and an instruction that does not write it (VF of a shift is
written); an instruction that does not set `pc`. -/
theorem witness_EachElementHasItsWriters :
    (∃ t, exec (.ldImm 0 1) State.reset = .next t) ∧ (∃ t, exec .ret State.reset = .next t) ∧
    ¬writesReg 15 (.ldImm 0 1) ∧ ¬writesReg 3 (.ldVxMem 2) ∧ ¬writesReg 0 (.shr 14 0) ∧ ¬setsPc (.ldBVx 0) :=
  ⟨⟨_, rfl⟩, ⟨_, rfl⟩, by simp [writesReg], by simp [writesReg], by simp [writesReg], by simp [setsPc]⟩

theorem witness_NoInstructionReadsTheSoundTimer : ∃ t, step (holding 0x200 0xF418) = .next t := ⟨_, rfl⟩

theorem witness_LoadCopiesTheProgram :
    (∀ r, State.reset.status ≠ .faulted r) ∧ (List.replicate 3584 (0 : Byte)).length ≤ 3584 :=
  ⟨fun _ h => (by cases h), by rw [List.length_replicate]⟩

theorem witness_OversizeLoadIsRejected :
    (∀ r, State.reset.status ≠ .faulted r) ∧ 3584 < (List.replicate 3585 (0 : Byte)).length :=
  ⟨fun _ h => (by cases h), by rw [List.length_replicate]; decide⟩

end Sys2Proof.Tests
end

section
/-! PROOFS. What a step does to the timers and to the clock rate (40_step_cycle.md R110): of the 34 instructions only FX15 and
FX18 reach a timer, and the change of the clock rate commutes with every instruction, because no operation reads that field of
the configuration. -/

namespace Sys2Proof.Machine

/-! ## Who writes the timers -/

/-- `t` has the two timers of `s`. -/
def State.SameTimers (s t : State) : Prop := t.dt = s.dt ∧ t.st = s.st

theorem State.sameTimers_refl (s : State) : s.SameTimers s := ⟨rfl, rfl⟩

theorem State.setKeys_sameTimers (s : State) (k : Keys) : s.SameTimers (s.setKeys k) := by
  unfold State.setKeys
  split <;> exact ⟨rfl, rfl⟩

theorem State.load_sameTimers (s : State) (bytes : List Byte) : s.SameTimers (s.load bytes).2 := by
  unfold State.load
  split
  · exact s.sameTimers_refl
  · split <;> exact ⟨rfl, rfl⟩

theorem State.waitStep_sameTimers (s : State) (x : Nibble) (latch : Option (Fin 16)) :
    s.SameTimers (s.waitStep x latch) := by
  cases latch <;> exact ⟨rfl, rfl⟩

theorem State.skipIf_sameTimers (s : State) (b : Bool) : s.SameTimers (s.skipIf b) := by
  cases b <;> exact ⟨rfl, rfl⟩

theorem State.push_sameTimers {s t : State} {w : Word} (h : s.push w = .ok t) : s.SameTimers t := by
  unfold State.push at h
  split at h <;> cases h
  exact ⟨rfl, rfl⟩

theorem State.pop_sameTimers {s : State} {r : Word × State} (h : s.pop = .ok r) : s.SameTimers r.2 := by
  unfold State.pop at h
  split at h <;> cases h
  exact ⟨rfl, rfl⟩

/-- A fault keeps the timers, so an attempted instruction keeps them if its successful outcomes do. -/
theorem attempt_map_sameTimers {α : Type} {i : Instr} {s t : State} {e : Except Fault α} {g : α → State}
    (h : attempt i s (e.map g) = .next t) (hg : ∀ a, e = .ok a → s.SameTimers (g a)) : s.SameTimers t := by
  cases e with
  | ok a => cases h; exact hg a rfl
  | error c => cases h; exact ⟨rfl, rfl⟩

/-- Everything an instruction can do to the timers. The cases closed last write neither timer and cannot fault. -/
theorem exec_timer_cases {i : Instr} {s t : State} (h : exec i s = .next t) :
    s.SameTimers t ∨ (∃ x, i = .ldDtVx x ∧ t = (s.setDt (s.readV x)).setRedraw false) ∨
    (∃ x, i = .ldStVx x ∧ t = (s.setSt (s.readV x)).setRedraw false) := by
  cases i
  case ldDtVx x => cases h; exact .inr (.inl ⟨x, rfl, rfl⟩)
  case ldStVx x => cases h; exact .inr (.inr ⟨x, rfl, rfl⟩)
  all_goals left
  case ret => exact attempt_map_sameTimers h fun _ hr => State.pop_sameTimers hr
  case call => exact attempt_map_sameTimers h fun u hr => (State.push_sameTimers hr : s.SameTimers u)
  case skp | sknp => exact attempt_map_sameTimers h fun _ _ => s.skipIf_sameTimers _
  case ldVxMem => exact attempt_map_sameTimers h fun _ _ => by simp [State.SameTimers]
  case drw | ldBVx | ldMemVx => exact attempt_map_sameTimers h fun _ _ => ⟨rfl, rfl⟩
  case seImm | sneImm | seReg | sneReg => cases h; exact s.skipIf_sameTimers _
  all_goals cases h; exact ⟨rfl, rfl⟩

/-- Everything a step can do to the timers: it keeps both, or it runs FX15 or FX18 and writes one of them. -/
theorem step_timer_cases {s t : State} (h : step s = .next t) :
    s.SameTimers t ∨ ∃ x, s.status = .running ∧
      (decode s.fetchWord = .ok (.ldDtVx x) ∧ t.dt = s.readV x ∧ t.st = s.st ∨
        decode s.fetchWord = .ok (.ldStVx x) ∧ t.st = s.readV x ∧ t.dt = s.dt) := by
  cases hs : s.status with
  | faulted r => rw [step_faulted s r hs] at h; cases h; exact .inl s.sameTimers_refl
  | awaitingKey x latch => rw [step_awaiting s x latch hs] at h; cases h; exact .inl (s.waitStep_sameTimers x latch)
  | running =>
    rcases step_running s hs with ⟨_, e⟩ | ⟨_, _, e⟩ | ⟨_, i, hi, e⟩ <;> rw [e] at h
    · cases h; exact .inl ⟨rfl, rfl⟩
    · cases h; exact .inl ⟨rfl, rfl⟩
    · rcases exec_timer_cases h with same | ⟨x, rfl, rfl⟩ | ⟨x, rfl, rfl⟩
      · exact .inl same
      · exact .inr ⟨x, rfl, .inl ⟨hi, rfl, rfl⟩⟩
      · exact .inr ⟨x, rfl, .inr ⟨hi, rfl, rfl⟩⟩

/-! ## The clock rate is not read -/

/-- `s` under another instruction clock rate. -/
def State.withClock (hz : Nat) (s : State) : State := { s with cfg := { s.cfg with instrClockHz := hz } }

/-- `f` on the next state of an outcome. -/
def mapNext (f : State → State) : StepOutcome → StepOutcome
  | .next t => .next (f t)
  | .fault r => .fault r
  | .refused r => .refused r

section Clock
variable (hz : Nat) (s : State)

@[simp] theorem State.withClock_status : (s.withClock hz).status = s.status := rfl
@[simp] theorem State.withClock_pc : (s.withClock hz).pc = s.pc := rfl

theorem State.waitStep_withClock (x : Nibble) (latch : Option (Fin 16)) :
    (s.withClock hz).waitStep x latch = (s.waitStep x latch).withClock hz := by
  cases latch <;> rfl

theorem State.skipIf_withClock (b : Bool) : (s.withClock hz).skipIf b = (s.skipIf b).withClock hz := by
  cases b <;> rfl

theorem State.push_withClock (w : Word) : (s.withClock hz).push w = (s.push w).map (State.withClock hz) := by
  by_cases h : s.sp.val < 16
  · rw [s.push_ok w h, (s.withClock hz).push_ok w h]; rfl
  · have full : s.sp.val = 16 := by omega
    rw [s.push_full w full, (s.withClock hz).push_full w full]; rfl

theorem State.pop_withClock : (s.withClock hz).pop = s.pop.map fun r => (r.1, r.2.withClock hz) := by
  by_cases h : s.sp.val = 0
  · rw [s.pop_empty h, (s.withClock hz).pop_empty h]; rfl
  · rw [s.pop_ok h, (s.withClock hz).pop_ok h]; rfl

theorem State.fetch_withClock : (s.withClock hz).fetch = s.fetch.map fun r => (r.1, r.2.withClock hz) := by
  by_cases h : s.pc.toNat < fetchLimit
  · rw [s.fetch_ok h, (s.withClock hz).fetch_ok h]; rfl
  · have high : fetchLimit ≤ s.pc.toNat := by omega
    rw [s.fetch_error high, (s.withClock hz).fetch_error high]; rfl

/-- Taking a fault does not read the rate, so an attempted instruction does not if what it does on success does not. -/
theorem attempt_withClock {α : Type} (i : Instr) (e : Except Fault α) {g g' : α → State}
    (hg : ∀ a, g' a = (g a).withClock hz) :
    attempt i (s.withClock hz) (e.map g') = mapNext (State.withClock hz) (attempt i s (e.map g)) := by
  cases e with
  | ok a => exact congrArg Host.Outcome.next (hg a)
  | error c => rfl

/-- No instruction reads the rate. Those left to `rfl` compute their result from fields the two states share. -/
theorem exec_withClock (i : Instr) : exec i (s.withClock hz) = mapNext (State.withClock hz) (exec i s) := by
  cases i
  case ret =>
    simp only [exec, execRet, State.pop_withClock]
    cases s.pop <;> rfl
  case call nnn =>
    simp only [exec, execCall, State.push_withClock, State.withClock_pc]
    cases s.push s.pc <;> rfl
  case skp | sknp =>
    exact attempt_withClock hz s _ (s.keyAt _) fun _ => congrArg (·.setRedraw false) (s.skipIf_withClock hz _)
  case drw | ldBVx | ldMemVx | ldVxMem => exact attempt_withClock hz s _ (checkRange _ _) fun _ => rfl
  case seImm | sneImm | seReg | sneReg => exact congrArg (finish false) (s.skipIf_withClock hz _)
  all_goals rfl

/-- A step does the same under any rate. -/
theorem step_withClock : step (s.withClock hz) = mapNext (State.withClock hz) (step s) := by
  simp only [step, State.withClock_status, State.fetch_withClock]
  cases s.status with
  | faulted r => rfl
  | awaitingKey x latch => exact congrArg Host.Outcome.next (s.waitStep_withClock hz x latch)
  | running =>
    rcases s.fetch with c | ⟨w, t⟩
    · rfl
    · simp only [Except.map]
      cases decode w with
      | error _ => rfl
      | ok i => exact exec_withClock hz t i

end Clock

/-- Settles O52: the timers by what a step can do to them, the clock rate because it commutes with a step. -/
theorem stepsNeverAdvanceTheTimers : Obligations.StepsNeverAdvanceTheTimers := by
  refine ⟨fun s k bytes => ?_, fun s t h => ⟨?_, ?_, fun hz => ?_⟩⟩
  · obtain ⟨keysDt, keysSt⟩ := s.setKeys_sameTimers k
    obtain ⟨loadDt, loadSt⟩ := s.load_sameTimers bytes
    exact ⟨keysDt, keysSt, loadDt, loadSt⟩
  · rcases step_timer_cases h with ⟨dt, _⟩ | ⟨x, hs, ⟨hd, dt, _⟩ | ⟨_, _, dt⟩⟩
    · exact .inl dt
    · exact .inr ⟨x, hs, hd, dt⟩
    · exact .inl dt
  · rcases step_timer_cases h with ⟨_, st⟩ | ⟨x, hs, ⟨_, _, st⟩ | ⟨hd, st, _⟩⟩
    · exact .inl st
    · exact .inl st
    · exact .inr ⟨x, hs, hd, st⟩
  · exact (step_withClock hz s).trans (congrArg (mapNext (State.withClock hz)) h)

end Sys2Proof.Machine
end

section
/-! PROOFS. The jump and the four skips (41_control_flow.md R120, R122, R124 to R127): each is the `finish` of a write to `pc`,
so one frame lemma gives them all. -/

namespace Sys2Proof.Machine

/-- The jump address, zero-extended, is the 16-bit word of the same number (R82). -/
theorem addressOf_eq_ofNat (nnn : Addr12) : addressOf nnn = BitVec.ofNat 16 nnn.toNat :=
  (BitVec.ofNat_toNat 16 nnn).symm

/-- An instruction that only writes `pc` completes with nothing else of the spec changed. -/
theorem finish_setPc_changesOnlyPc (s : State) (p : Word) (redraw : Bool) :
    ∃ t, finish redraw (s.setPc p) = .next t ∧ s.changesOnlyPc t p :=
  ⟨(s.setPc p).setRedraw redraw, rfl, rfl, rfl, fun _ => rfl⟩

/-- A skip passes over one word exactly when its condition holds. -/
theorem finish_skipIf_changesOnlyPc (s : State) (p : Prop) [Decidable p] (redraw : Bool) :
    ∃ t, finish redraw (s.skipIf (decide p)) = .next t ∧ s.changesOnlyPc t (if p then s.pc + 2 else s.pc) := by
  rw [State.skipIf_eq]
  simpa only [decide_eq_true_eq] using finish_setPc_changesOnlyPc s _ redraw

/-- A skip on a condition that fails, as SNE is written. -/
theorem finish_skipIf_not_changesOnlyPc (s : State) (p : Prop) [Decidable p] (redraw : Bool) :
    ∃ t, finish redraw (s.skipIf (decide ¬p)) = .next t ∧ s.changesOnlyPc t (if p then s.pc else s.pc + 2) := by
  rw [← ite_not]
  exact finish_skipIf_changesOnlyPc s (¬p) redraw

/-- Settles O10: JP writes its zero-extended address to `pc` and nothing else. -/
theorem jumpSetsPc : Obligations.JumpSetsPc := by
  intro s nnn
  rw [← addressOf_eq_ofNat]
  exact finish_setPc_changesOnlyPc s (addressOf nnn) false

/-- Settles O11: SE skips when its operands are equal, SNE when they are not. -/
theorem skipsPassOverOneWord : Obligations.SkipsPassOverOneWord := by
  intro s x y nn
  exact ⟨finish_skipIf_changesOnlyPc s (s.readV x = nn) false,
    finish_skipIf_not_changesOnlyPc s (s.readV x = nn) false,
    finish_skipIf_changesOnlyPc s (s.readV x = s.readV y) false,
    finish_skipIf_not_changesOnlyPc s (s.readV x = s.readV y) false⟩

end Sys2Proof.Machine
end

section
/-! PROOFS. The loads, the additions and the subtraction (42_register_alu.md R142, R143, R150, R154, R155): each is the `finish`
of a write to VX, those with a flag of a write to VX and then to VF, so two frame lemmas give them all. -/

namespace Sys2Proof.Machine

/-- An instruction that only writes VX completes with no other register and nothing else of the spec changed. -/
theorem finish_writeV_changesOnlyRegs (s : State) (x : Nibble) (b : Byte) (redraw : Bool) :
    ∃ t, finish redraw (s.writeV x b) = .next t ∧ s.changesOnlyRegs t (fun k => if k = x then b else s.readV k) :=
  ⟨(s.writeV x b).setRedraw redraw, rfl, rfl, fun k => s.readV_writeV x k b, s.readMem_writeV x b⟩

/-- The flag overwrites the result when VX is VF, because it is written last (R141). -/
theorem finish_writeFlag_changesOnlyRegs (s : State) (x : Nibble) (b : Byte) (p : Prop) [Decidable p] (redraw : Bool) :
    ∃ t, finish redraw ((s.writeV x b).writeFlag (decide p)) = .next t ∧
      s.changesOnlyRegs t (fun k => if k = 15 then flagByte p else if k = x then b else s.readV k) := by
  refine ⟨((s.writeV x b).writeFlag (decide p)).setRedraw redraw, rfl, rfl, fun k => ?_, State.readMem_congr rfl rfl⟩
  simp [flagReg, flagByte]

/-- Narrowing to a byte is reduction modulo 256 (R13). -/
theorem wrap8_eq_ofNat_mod (n : Nat) : wrap8 n = BitVec.ofNat 8 (n % 256) :=
  BitVec.eq_of_toNat_eq (by simp [wrap8])

/-- The difference of two bytes is their integer difference modulo 256. -/
theorem byte_sub_eq_ofInt (a b : Byte) : a - b = BitVec.ofInt 8 ((a.toNat : Int) - (b.toNat : Int)) := by
  apply BitVec.eq_of_toNat_eq
  rw [BitVec.toNat_sub, BitVec.toNat_ofInt]
  omega

/-- Settles O17: both loads are a single write to VX. -/
theorem loadWritesOneRegister : Obligations.LoadWritesOneRegister := by
  intro s x y nn
  exact ⟨finish_writeV_changesOnlyRegs s x nn false, finish_writeV_changesOnlyRegs s x (s.readV y) false⟩

/-- Settles O19: the sum modulo 256 is the one write, so VF changes only as VX. -/
theorem addImmediateWritesNoFlag : Obligations.AddImmediateWritesNoFlag := by
  intro s x nn
  rw [← wrap8_eq_ofNat_mod]
  exact finish_writeV_changesOnlyRegs s x (wrap8 ((s.readV x).toNat + nn.toNat)) false

/-- Settles O20: the sum modulo 256 is written to VX, then the carry to VF. -/
theorem addSetsCarryLast : Obligations.AddSetsCarryLast := by
  intro s x y
  rw [← wrap8_eq_ofNat_mod]
  exact finish_writeFlag_changesOnlyRegs s x (wrap8 ((s.readV x).toNat + (s.readV y).toNat))
    ((s.readV x).toNat + (s.readV y).toNat > 255) false

/-- Settles O21: the difference modulo 256 is written to VX, then whether there was no borrow to VF. -/
theorem subtractSetsNoBorrowLast : Obligations.SubtractSetsNoBorrowLast := by
  intro s x y
  rw [← byte_sub_eq_ofInt]
  exact finish_writeFlag_changesOnlyRegs s x (s.readV x - s.readV y) ((s.readV x).toNat ≥ (s.readV y).toNat) false

end Sys2Proof.Machine
end

section
/-! PROOFS. LD I, NNN (43_index_memory.md R170): the `finish` of a write to `I`. -/

namespace Sys2Proof.Machine

/-- Zero-extending an address keeps its number (R82). -/
@[simp] theorem addressOf_toNat (nnn : Addr12) : (addressOf nnn).toNat = nnn.toNat :=
  BitVec.toNat_setWidth_of_le (by decide)

/-- Settles O25: the one write is the zero-extended address, to `I`, which no memory read depends on. -/
theorem loadIndexWritesI : Obligations.LoadIndexWritesI := by
  intro s nnn
  exact ⟨(s.setIdx (addressOf nnn)).setRedraw false, rfl, rfl, addressOf_toNat nnn, s.readMem_setIdx (addressOf nnn)⟩

end Sys2Proof.Machine
end

section
/-! PROOFS. The three timer copies (45_timers_keys.md R210 to R212): each is the `finish` of one write, to VX, DT or ST. -/

namespace Sys2Proof.Machine

/-- Settles O37: the copy from DT is a single write to VX, the copies to DT and ST a single write to that timer, which no
memory read depends on. -/
theorem timerCopies : Obligations.TimerCopies := by
  intro s x
  refine ⟨finish_writeV_changesOnlyRegs s x s.dt false, ?toDt, ?toSt⟩
  case toDt => exact ⟨(s.setDt (s.readV x)).setRedraw false, rfl, rfl, s.readMem_setDt (s.readV x)⟩
  case toSt => exact ⟨(s.setSt (s.readV x)).setRedraw false, rfl, rfl, s.readMem_setSt (s.readV x)⟩

end Sys2Proof.Machine
end

section
/-! PROOFS. A `load` of more bytes than memory holds from 0x200 on (70_reset_and_hazards.md R264): in a machine that is not
faulted the length check comes first, and it answers with the state it was given. -/

namespace Sys2Proof.Machine

/-- A machine is not faulted exactly when its status holds no fault record. -/
theorem State.isFaulted_eq_false_iff (s : State) : s.isFaulted = false ↔ ∀ r, s.status ≠ .faulted r := by
  unfold State.isFaulted
  cases s.status <;> simp

/-- R264: the bytes from `PROG_BASE` to the end of memory. -/
theorem memSize_sub_progBase : memSize - progBase = 3584 := rfl

/-- A machine that is not faulted rejects an image longer than its program space, and stays as it is. -/
theorem State.load_of_oversize {s : State} {bytes : List Byte} (notFaulted : s.isFaulted = false)
    (oversize : memSize - progBase < bytes.length) : s.load bytes = (.programTooLarge, s) := by
  rw [State.load, if_neg (by simp [notFaulted]), if_pos oversize]

/-- Settles O57: 3584 bytes is the whole program space, so the length check rejects the image. -/
theorem oversizeLoadIsRejected : Obligations.OversizeLoadIsRejected := by
  intro s bytes notFaulted oversize
  exact State.load_of_oversize (s.isFaulted_eq_false_iff.mpr notFaulted) (memSize_sub_progBase ▸ oversize)

end Sys2Proof.Machine
end

section
/-! PROOFS. Encoding and decoding (30_encoding.md R84 to R95): each is the other's inverse, the decoder follows the opcode
table row by row, and the words it refuses are those of R90. -/

namespace Sys2Proof

/-! ## Decoding an encoded instruction -/

/-- Each arm of `encode` builds a word from fields, and each arm of `decode` reads those fields back. -/
theorem decode_encode (i : Instr) : decode (encode i) = .ok i := by
  cases i
  case cls | ret => rfl
  all_goals simp [encode, decode, decodeFamily5, decodeFamily8, decodeFamily9, decodeFamilyE, decodeFamilyF]

/-- Decoding the two bytes of an instruction leaves the bytes that follow. -/
theorem decodeBytes_encodeBytes (i : Instr) (rest : List Byte) :
    decodeBytes (encodeBytes i ++ rest) = .ok (i, rest) := by
  simp only [encodeBytes, List.cons_append, List.nil_append, decodeBytes_cons, wordOfBytes_bytes, decode_encode]
  rfl

/-! ## Encoding a decoded word -/

theorem wordFXNN_of_fieldF {w : Word} {f : Nibble} (hf : fieldF w = f) : wordFXNN f (fieldX w) (fieldNN w) = w :=
  hf ▸ wordFXNN_fields w

theorem wordFNNN_of_fieldF {w : Word} {f : Nibble} (hf : fieldF w = f) : wordFNNN f (fieldNNN w) = w :=
  hf ▸ wordFNNN_fields w

theorem wordFXYN_of_fieldF {w : Word} {f : Nibble} (hf : fieldF w = f) :
    wordFXYN f (fieldX w) (fieldY w) (fieldN w) = w :=
  hf ▸ wordFXYN_fields w

/-- The family of `decode`'s last arm. -/
theorem nibble_eq_F (f : Nibble) : f ≠ 0x0#4 → f ≠ 0x1#4 → f ≠ 0x2#4 → f ≠ 0x3#4 → f ≠ 0x4#4 → f ≠ 0x5#4 → f ≠ 0x6#4 →
    f ≠ 0x7#4 → f ≠ 0x8#4 → f ≠ 0x9#4 → f ≠ 0xA#4 → f ≠ 0xB#4 → f ≠ 0xC#4 → f ≠ 0xD#4 → f ≠ 0xE#4 → f = 0xF#4 := by
  bv_omega

/-- The arms of `decode` whose word has no fixed bits below the family read every bit of it; the others fix the bits they do
not read. -/
theorem encode_of_decode {w : Word} {i : Instr} (h : decode w = .ok i) : encode i = w := by
  unfold decode at h
  split at h
  case h_1 hf =>
    have hw := wordFNNN_of_fieldF hf
    unfold decodeFamily0 at h
    split at h <;> cases h
    · rw [← hw, ‹fieldNNN w = _›]; rfl
    · rw [← hw, ‹fieldNNN w = _›]; rfl
  case h_6 hf =>
    have hw := wordFXYN_of_fieldF hf
    unfold decodeFamily5 at h
    split at h <;> cases h
    rw [‹fieldN w = _›] at hw
    exact hw
  case h_9 hf =>
    have hw := wordFXYN_of_fieldF hf
    unfold decodeFamily8 at h
    split at h <;> cases h <;> rw [‹fieldN w = _›] at hw <;> exact hw
  case h_10 hf =>
    have hw := wordFXYN_of_fieldF hf
    unfold decodeFamily9 at h
    split at h <;> cases h
    rw [‹fieldN w = _›] at hw
    exact hw
  case h_15 hf =>
    have hw := wordFXNN_of_fieldF hf
    unfold decodeFamilyE at h
    split at h <;> cases h <;> rw [‹fieldNN w = _›] at hw <;> exact hw
  case h_16 =>
    have hf : fieldF w = 0xF#4 := by apply nibble_eq_F <;> assumption
    have hw := wordFXNN_of_fieldF hf
    unfold decodeFamilyF at h
    split at h <;> cases h <;> rw [‹fieldNN w = _›] at hw <;> exact hw
  case h_14 hf => cases h; exact wordFXYN_of_fieldF hf
  case h_4 hf | h_5 hf | h_7 hf | h_8 hf | h_13 hf => cases h; exact wordFXNN_of_fieldF hf
  case h_2 hf | h_3 hf | h_11 hf | h_12 hf => cases h; exact wordFNNN_of_fieldF hf

/-! ## The rows of the opcode table -/

section Rows

variable {w m v : Word}

theorem fieldF_of_masked (h : w &&& m = v) (hm : fieldF m = BitVec.allOnes 4) : fieldF w = fieldF v := by
  have masked : fieldF (w &&& m) = fieldF w &&& fieldF m := by ext i hi; simp [fieldF]
  rw [← h, masked, hm, BitVec.and_allOnes]

theorem fieldN_of_masked (h : w &&& m = v) (hm : fieldN m = BitVec.allOnes 4) : fieldN w = fieldN v := by
  have masked : fieldN (w &&& m) = fieldN w &&& fieldN m := by ext i hi; simp [fieldN]
  rw [← h, masked, hm, BitVec.and_allOnes]

theorem fieldNN_of_masked (h : w &&& m = v) (hm : fieldNN m = BitVec.allOnes 8) : fieldNN w = fieldNN v := by
  have masked : fieldNN (w &&& m) = fieldNN w &&& fieldNN m := by ext i hi; simp [fieldNN]
  rw [← h, masked, hm, BitVec.and_allOnes]

end Rows

namespace Machine

variable (w : Word)

@[simp] theorem nibbleOf_256 : nibbleOf w 256 = fieldX w := by
  apply BitVec.eq_of_toNat_eq
  simp [nibbleOf, fieldX, Nat.shiftRight_eq_div_pow]

@[simp] theorem nibbleOf_16 : nibbleOf w 16 = fieldY w := by
  apply BitVec.eq_of_toNat_eq
  simp [nibbleOf, fieldY, Nat.shiftRight_eq_div_pow]

@[simp] theorem nibbleOf_1 : nibbleOf w 1 = fieldN w := by
  apply BitVec.eq_of_toNat_eq
  simp [nibbleOf, fieldN]

@[simp] theorem byteOf_eq_fieldNN : byteOf w = fieldNN w := by
  apply BitVec.eq_of_toNat_eq
  simp [byteOf, fieldNN]

@[simp] theorem addressBitsOf_eq_fieldNNN : addressBitsOf w = fieldNNN w := by
  apply BitVec.eq_of_toNat_eq
  simp [addressBitsOf, fieldNNN]

/-! A word that matches a row is rebuilt from the row's fixed bits and its own fields, by the row's mask and shape. -/

theorem eq_of_mask_FFFF (v : Word) (h : w &&& 0xFFFF = v) : v = w := by
  rw [← h, show (0xFFFF : Word) = BitVec.allOnes 16 from rfl, BitVec.and_allOnes]

theorem wordFNNN_of_mask (v : Word) (h : w &&& 0xF000 = v) : wordFNNN (fieldF v) (addressBitsOf w) = w := by
  rw [addressBitsOf_eq_fieldNNN, wordFNNN_of_fieldF (fieldF_of_masked h rfl)]

theorem wordFXNN_of_mask (v : Word) (h : w &&& 0xF000 = v) : wordFXNN (fieldF v) (nibbleOf w 256) (byteOf w) = w := by
  rw [nibbleOf_256, byteOf_eq_fieldNN, wordFXNN_of_fieldF (fieldF_of_masked h rfl)]

theorem wordFXYN_of_mask (v : Word) (h : w &&& 0xF000 = v) :
    wordFXYN (fieldF v) (nibbleOf w 256) (nibbleOf w 16) (nibbleOf w 1) = w := by
  rw [nibbleOf_256, nibbleOf_16, nibbleOf_1, wordFXYN_of_fieldF (fieldF_of_masked h rfl)]

theorem wordFXYN_of_mask_F00F (v : Word) (h : w &&& 0xF00F = v) :
    wordFXYN (fieldF v) (nibbleOf w 256) (nibbleOf w 16) (fieldN v) = w := by
  rw [nibbleOf_256, nibbleOf_16, ← fieldN_of_masked h rfl, wordFXYN_of_fieldF (fieldF_of_masked h rfl)]

theorem wordFXNN_of_mask_F0FF (v : Word) (h : w &&& 0xF0FF = v) :
    wordFXNN (fieldF v) (nibbleOf w 256) (fieldNN v) = w := by
  rw [nibbleOf_256, ← fieldNN_of_masked h rfl, wordFXNN_of_fieldF (fieldF_of_masked h rfl)]

/-- A word that matches a row is the encoding of the row's instruction; the lines below are those of `opcodeRows`. -/
theorem encode_of_row :
    ∀ row ∈ opcodeRows, ∀ w : Word, w &&& row.1 = row.2.1 → encode (row.2.2 w) = w := by
  simp only [opcodeRows, List.cons_append, List.nil_append, List.forall_mem_cons]
  exact
    ⟨(eq_of_mask_FFFF · _), (eq_of_mask_FFFF · _),
      (wordFNNN_of_mask · _), (wordFNNN_of_mask · _), (wordFXNN_of_mask · _), (wordFXNN_of_mask · _),
      (wordFXYN_of_mask_F00F · _), (wordFXNN_of_mask · _), (wordFXNN_of_mask · _),
      (wordFXYN_of_mask_F00F · _), (wordFXYN_of_mask_F00F · _), (wordFXYN_of_mask_F00F · _),
      (wordFXYN_of_mask_F00F · _), (wordFXYN_of_mask_F00F · _), (wordFXYN_of_mask_F00F · _),
      (wordFXYN_of_mask_F00F · _), (wordFXYN_of_mask_F00F · _), (wordFXYN_of_mask_F00F · _),
      (wordFXYN_of_mask_F00F · _), (wordFNNN_of_mask · _), (wordFNNN_of_mask · _), (wordFXNN_of_mask · _),
      (wordFXYN_of_mask · _), (wordFXNN_of_mask_F0FF · _), (wordFXNN_of_mask_F0FF · _),
      (wordFXNN_of_mask_F0FF · _), (wordFXNN_of_mask_F0FF · _), (wordFXNN_of_mask_F0FF · _),
      (wordFXNN_of_mask_F0FF · _), (wordFXNN_of_mask_F0FF · _), (wordFXNN_of_mask_F0FF · _),
      (wordFXNN_of_mask_F0FF · _), (wordFXNN_of_mask_F0FF · _), (wordFXNN_of_mask_F0FF · _),
      List.forall_mem_nil _⟩

/-- Every instruction has a row: `tableRow` gives a row's mask and match. -/
theorem tableRow_mem_opcodeRows (i : Instr) : tableRow i ∈ opcodeRows.map fun row => (row.1, row.2.1) := by
  cases i <;> simp only [tableRow] <;> decide

open Laws.MatchesTable in
/-- The word of every instruction has its row's fixed bits. -/
theorem encode_matches_tableRow : ∀ i, Statement i
  | .cls => cls | .ret => ret | .jp a => jp a | .call a => call a
  | .seImm x b => seImm x b | .sneImm x b => sneImm x b | .seReg x y => seReg x y | .sneReg x y => sneReg x y
  | .ldImm x b => ldImm x b | .addImm x b => addImm x b | .ldReg x y => ldReg x y | .orReg x y => orReg x y
  | .andReg x y => andReg x y | .xorReg x y => xorReg x y | .addReg x y => addReg x y | .subReg x y => subReg x y
  | .shr x y => shr x y | .subn x y => subn x y | .shl x y => shl x y | .ldI a => ldI a | .jpV0 a => jpV0 a
  | .rnd x b => rnd x b | .drw x y n => drw x y n | .skp x => skp x | .sknp x => sknp x
  | .ldVxDt x => ldVxDt x | .ldVxK x => ldVxK x | .ldDtVx x => ldDtVx x | .ldStVx x => ldStVx x
  | .addIVx x => addIVx x | .ldFVx x => ldFVx x | .ldBVx x => ldBVx x | .ldMemVx x => ldMemVx x
  | .ldVxMem x => ldVxMem x

/-! ## The words the decoder refuses -/

/-- The decoder refuses a word by name only. -/
theorem decode_error {w : Word} {e : DecodeError} (h : decode w = .error e) : e = .illegalOpcode w := by
  unfold decode at h
  split at h
  case h_1 => unfold decodeFamily0 at h; split at h <;> cases h; rfl
  case h_6 => unfold decodeFamily5 at h; split at h <;> cases h; rfl
  case h_9 => unfold decodeFamily8 at h; split at h <;> cases h; rfl
  case h_10 => unfold decodeFamily9 at h; split at h <;> cases h; rfl
  case h_15 => unfold decodeFamilyE at h; split at h <;> cases h; rfl
  case h_16 => unfold decodeFamilyF at h; split at h <;> cases h; rfl
  all_goals cases h

section Refused

variable (w : Word)

theorem decodeFamily0_refuses :
    decodeFamily0 w = .error (.illegalOpcode w) ↔ fieldNNN w ≠ 0x0E0#12 ∧ fieldNNN w ≠ 0x0EE#12 := by
  unfold decodeFamily0
  split <;> simp_all

theorem decodeFamily5_refuses : decodeFamily5 w = .error (.illegalOpcode w) ↔ fieldN w ≠ 0x0#4 := by
  unfold decodeFamily5
  split <;> simp_all

theorem decodeFamily8_refuses : decodeFamily8 w = .error (.illegalOpcode w) ↔
    fieldN w ∉ [0x0#4, 0x1#4, 0x2#4, 0x3#4, 0x4#4, 0x5#4, 0x6#4, 0x7#4, 0xE#4] := by
  unfold decodeFamily8
  split <;> simp_all

theorem decodeFamily9_refuses : decodeFamily9 w = .error (.illegalOpcode w) ↔ fieldN w ≠ 0x0#4 := by
  unfold decodeFamily9
  split <;> simp_all

theorem decodeFamilyE_refuses : decodeFamilyE w = .error (.illegalOpcode w) ↔ fieldNN w ∉ [0x9E#8, 0xA1#8] := by
  unfold decodeFamilyE
  split <;> simp_all

theorem decodeFamilyF_refuses : decodeFamilyF w = .error (.illegalOpcode w) ↔
    fieldNN w ∉ [0x07#8, 0x0A#8, 0x15#8, 0x18#8, 0x1E#8, 0x29#8, 0x33#8, 0x55#8, 0x65#8] := by
  unfold decodeFamilyF
  split <;> simp_all

theorem fieldF_toNat : (fieldF w).toNat = w.toNat / 4096 := by
  simp [fieldF, Nat.shiftRight_eq_div_pow]
  omega

theorem fieldN_toNat : (fieldN w).toNat = w.toNat % 16 := by simp [fieldN]

theorem fieldNN_toNat_eq_mod : (fieldNN w).toNat = w.toNat % 256 := by simp [fieldNN]

theorem fieldNNN_toNat_eq_mod : (fieldNNN w).toNat = w.toNat % 4096 := by simp [fieldNNN]

/-- The families of R90 by the fields of the word. -/
theorem illegalByFamily_iff : illegalByFamily w ↔
    (fieldF w = 0x0#4 ∧ fieldNNN w ≠ 0x0E0#12 ∧ fieldNNN w ≠ 0x0EE#12) ∨
    (fieldF w = 0x5#4 ∧ fieldN w ≠ 0x0#4) ∨
    (fieldF w = 0x8#4 ∧ fieldN w ∉ [0x0#4, 0x1#4, 0x2#4, 0x3#4, 0x4#4, 0x5#4, 0x6#4, 0x7#4, 0xE#4]) ∨
    (fieldF w = 0x9#4 ∧ fieldN w ≠ 0x0#4) ∨
    (fieldF w = 0xE#4 ∧ fieldNN w ∉ [0x9E#8, 0xA1#8]) ∨
    (fieldF w = 0xF#4 ∧ fieldNN w ∉ [0x07#8, 0x0A#8, 0x15#8, 0x18#8, 0x1E#8, 0x29#8, 0x33#8, 0x55#8, 0x65#8]) := by
  have hF := fieldF_toNat w
  have hN := fieldN_toNat w
  have hNN := fieldNN_toNat_eq_mod w
  have hNNN := fieldNNN_toNat_eq_mod w
  simp only [illegalByFamily, List.mem_cons, List.not_mem_nil, or_false, ← BitVec.toNat_inj, ne_eq, hF, hN, hNN, hNNN,
    BitVec.ofNat_eq_ofNat, BitVec.toNat_ofNat, Nat.reducePow, Nat.reduceMod]
  refine or_congr ?zero (or_congr Iff.rfl (or_congr ?eight (or_congr Iff.rfl (or_congr Iff.rfl Iff.rfl))))
  case zero => omega
  case eight => exact and_congr_right fun _ => by omega

/-- The decoder refuses exactly the words of R90, family by family. -/
theorem decode_refuses : decode w = .error (.illegalOpcode w) ↔ illegalByFamily w := by
  rw [illegalByFamily_iff]
  unfold decode
  split
  case h_1 hf => simp [hf, decodeFamily0_refuses]
  case h_6 hf => simp [hf, decodeFamily5_refuses]
  case h_9 hf => simp [hf, decodeFamily8_refuses]
  case h_10 hf => simp [hf, decodeFamily9_refuses]
  case h_15 hf => simp [hf, decodeFamilyE_refuses]
  case h_16 =>
    have hf : fieldF w = 0xF#4 := by apply nibble_eq_F <;> assumption
    simp [hf, decodeFamilyF_refuses]
  all_goals simp [*]

end Refused

/-! ## The statements -/

/-- Settles O1, on the word and on its bytes. -/
theorem decodeOfEncodeIsIdentity : Obligations.DecodeOfEncodeIsIdentity :=
  fun i rest _ => ⟨decode_encode i, decodeBytes_encodeBytes i rest⟩

/-- Settles O2. -/
theorem encodeOfDecodeIsIdentity : Obligations.EncodeOfDecodeIsIdentity := fun _ _ => encode_of_decode

/-- Settles O3: a word of a row encodes the row's instruction; a word that decodes has the fixed bits of its instruction's
row. -/
theorem decoderFollowsOpcodeTable : Obligations.DecoderFollowsOpcodeTable := by
  refine fun w => ⟨fun row mem matched => ?_, fun noRow => ?_⟩
  · have decoded := decode_encode (row.2.2 w)
    rwa [encode_of_row row mem w matched] at decoded
  · cases hd : decode w with
    | error e => rw [decode_error hd]
    | ok i =>
      obtain ⟨row, mem, hrow⟩ := List.mem_map.mp (tableRow_mem_opcodeRows i)
      have matched : encode i &&& (tableRow i).1 = (tableRow i).2 := encode_matches_tableRow i
      rw [encode_of_decode hd, ← hrow] at matched
      exact absurd matched (noRow row mem)

/-- Settles O4: a step that fetches a refused word takes the decoder's fault. -/
theorem illegalWordsAreThoseListed : Obligations.IllegalWordsAreThoseListed := by
  refine fun w => ⟨decode_refuses w, fun s running inBounds illegal fetched => ?_⟩
  have refused : decode s.fetchWord = .error (.illegalOpcode w) := by
    rw [State.fetchWord, fetched]
    exact (decode_refuses w).mpr illegal
  rcases step_running s running with ⟨past, _⟩ | ⟨_, _, e⟩ | ⟨_, i, decoded, _⟩
  · exact absurd inBounds (Nat.not_lt.mpr past)
  · rw [e, State.fetchWord, fetched]
    rfl
  · rw [refused] at decoded
    cases decoded

/-- Settles O5: each of the seven words is the encoding of its instruction, and 0x5121 is of family 5 with N ≠ 0. -/
theorem writtenOutWordsDecode : Obligations.WrittenOutWordsDecode :=
  ⟨decode_encode .ret, decode_encode (.call 0x310), decode_encode (.ldImm 0xA 0x7F), decode_encode (.subReg 1 2),
    decode_encode (.drw 0xB 0xC 5), decode_encode (.sknp 5), decode_encode (.ldVxMem 2),
    (decode_refuses 0x5121).mpr (.inr (.inl (by decide)))⟩

end Machine

end Sys2Proof
end

section
/-! PROOFS. Everything an instruction can do, said once: it takes the fault it owes (60_exceptions.md R231), or it completes and
keeps every element that the spec does not let it write (10_state.md R20 to R36). -/

namespace Sys2Proof.Machine

/-- The fault an instruction owes on the state after its fetch (R231). -/
def State.execFault (s : State) : Instr → Option Fault
  | .call _ => if s.sp.val = 16 then some .stackOverflow else none
  | .ret => if s.sp.val = 0 then some .stackUnderflow else none
  | .drw _ _ n => if n.toNat ≠ 0 ∧ s.idx.toNat + n.toNat - 1 > 0xFFF then some .indexOutOfBounds else none
  | .ldBVx _ => if s.idx.toNat + 2 > 0xFFF then some .indexOutOfBounds else none
  | .ldMemVx x | .ldVxMem x => if s.idx.toNat + x.toNat > 0xFFF then some .indexOutOfBounds else none
  | .skp x | .sknp x => if (s.readV x).toNat > 15 then some .keyIndexOutOfRange else none
  | _ => none

/-- `t` is what the completed instruction `i` may leave of `s`, the state after its fetch: each element but those `i` writes
is kept, only FX0A changes the status, and the redraw bit is the one of R104. -/
structure State.CompletedBy (s : State) (i : Instr) (t : State) : Prop where
  cfg : t.cfg = s.cfg
  key : t.key = s.key
  mem : (∀ x, i ≠ .ldBVx x ∧ i ≠ .ldMemVx x) → t.mem = s.mem
  stack : (∀ nnn, i ≠ .call nnn) → t.stack = s.stack
  sp : (∀ nnn, i ≠ .call nnn) → i ≠ .ret → t.sp = s.sp
  idx : (∀ nnn x, i ≠ .ldI nnn ∧ i ≠ .addIVx x ∧ i ≠ .ldFVx x ∧ i ≠ .ldMemVx x ∧ i ≠ .ldVxMem x) → t.idx = s.idx
  dt : (∀ x, i ≠ .ldDtVx x) → t.dt = s.dt
  st : (∀ x, i ≠ .ldStVx x) → t.st = s.st
  disp : (∀ x y n, i ≠ .cls ∧ i ≠ .drw x y n) → t.disp = s.disp
  status : (∀ x, i ≠ .ldVxK x) → t.status = s.status
  wait : ∀ x, i = .ldVxK x → t.status = .awaitingKey x none ∧ t.pc = s.pc - 2
  regs : ∀ k, ¬writesReg k i → t.readV k = s.readV k
  pc : ¬setsPc i → t.pc = s.pc
  draws : (∀ x nn, i ≠ .rnd x nn) → t.draws = s.draws
  redraw : t.redraw = true ↔ i = .cls ∨ ∃ x y n, i = .drw x y n

/-- Everything an instruction can do: it takes the fault it owes, or it owes none and completes. The eight instructions that
can fault go by their guards; the others have one outcome. -/
theorem exec_cases (i : Instr) (s : State) :
    (∃ c, s.execFault i = some c ∧ exec i s = .next (s.taken i c)) ∨
    (s.execFault i = none ∧ ∃ t, exec i s = .next t ∧ s.CompletedBy i t) := by
  cases i
  case ret =>
    rcases execRet_cases s with ⟨h, e⟩ | ⟨h, e⟩
    · exact .inr ⟨if_neg h, _, e, by constructor <;> simp [writesReg, setsPc]⟩
    · exact .inl ⟨_, if_pos h, e⟩
  case call nnn =>
    rcases execCall_cases nnn s with ⟨h, e⟩ | ⟨h, e⟩
    · exact .inr ⟨if_neg (by omega), _, e, by constructor <;> simp [writesReg, setsPc]⟩
    · exact .inl ⟨_, if_pos h, e⟩
  case drw x y n =>
    rcases execDrw_cases x y n s with ⟨h, e⟩ | ⟨h, h', e⟩
    · exact .inr ⟨if_neg (by omega), _, e, by
        constructor <;> simp +contextual [State.drawn, writesReg, setsPc, flagReg]⟩
    · exact .inl ⟨_, if_pos (by omega), e⟩
  case skp x =>
    rcases execSkp_cases x s with ⟨h, e⟩ | ⟨h, e⟩
    · exact .inr ⟨if_neg (by omega), _, e, by constructor <;> simp [writesReg, setsPc]⟩
    · exact .inl ⟨_, if_pos (by omega), e⟩
  case sknp x =>
    rcases execSknp_cases x s with ⟨h, e⟩ | ⟨h, e⟩
    · exact .inr ⟨if_neg (by omega), _, e, by constructor <;> simp [writesReg, setsPc]⟩
    · exact .inl ⟨_, if_pos (by omega), e⟩
  case ldBVx x =>
    rcases execLdBVx_cases x s with ⟨h, e⟩ | ⟨h, e⟩
    · exact .inr ⟨if_neg (by omega), _, e, by constructor <;> simp [writesReg, setsPc]⟩
    · exact .inl ⟨_, if_pos (by omega), e⟩
  case ldMemVx x =>
    rcases execLdMemVx_cases x s with ⟨h, e⟩ | ⟨h, e⟩
    · exact .inr ⟨if_neg (by omega), _, e, by constructor <;> simp [writesReg, setsPc]⟩
    · exact .inl ⟨_, if_pos (by omega), e⟩
  case ldVxMem x =>
    rcases execLdVxMem_cases x s with ⟨h, e⟩ | ⟨h, e⟩
    · exact .inr ⟨if_neg (by omega), _, e, by constructor <;> simp +contextual [writesReg, setsPc]⟩
    · exact .inl ⟨_, if_pos (by omega), e⟩
  all_goals refine .inr ⟨rfl, _, rfl, ?_⟩
  case seImm | sneImm | seReg | sneReg =>
    constructor <;> simp [writesReg, setsPc, State.skipIf_eq]
  all_goals constructor <;> simp +contextual [writesReg, setsPc, flagReg]

/-- Only the fetch raises PcOutOfBounds. -/
theorem execFault_ne_pcOutOfBounds {i : Instr} {s : State} {c : Fault} (h : s.execFault i = some c) :
    c ≠ .pcOutOfBounds := by
  rintro rfl
  cases i <;> simp [State.execFault] at h

/-- A completed instruction leaves a running machine running or waiting. -/
theorem State.CompletedBy.not_faulted {s t : State} {i : Instr} (h : s.CompletedBy i t) (running : s.status = .running)
    (r : FaultRecord) : t.status ≠ .faulted r := by
  by_cases hk : ∃ x, i = .ldVxK x
  · obtain ⟨x, hx⟩ := hk
    simp [(h.wait x hx).1]
  · rw [h.status (not_exists.mp hk), running]
    simp

/-! ## The fault of an instruction, in the statements' words -/

/-- The state a fault leaves is the one the statements name, its word written as a number. -/
theorem State.taken_eq_faultedBy (s : State) (i : Instr) (c : Fault) {n : Nat} (h : encode i = BitVec.ofNat 16 n) :
    s.taken i c = s.faultedBy c n := by
  rw [State.taken, h]
  rfl

/-- The word of an FXNN pattern, with X apart from the fixed bits. -/
theorem wordFXNN_eq_ofNat (f x : Nibble) (nn : Byte) :
    wordFXNN f x nn = BitVec.ofNat 16 (f.toNat * 4096 + nn.toNat + x.toNat * 256) := by
  rw [wordFXNN]
  congr 1
  omega

/-! ## Who writes what -/

/-- Settles O54: a taken fault writes `pc` and the status, a completed instruction what `CompletedBy` leaves open. -/
theorem eachElementHasItsWriters : Obligations.EachElementHasItsWriters := by
  intro i s t h
  rcases exec_cases i s with ⟨c, _, e⟩ | ⟨_, u, e, done⟩ <;> rw [e] at h <;> cases h
  · exact ⟨rfl, rfl, fun _ _ => rfl, fun _ => ⟨rfl, fun _ => rfl⟩, fun _ => rfl, fun _ => rfl, fun _ => rfl, fun _ => rfl,
      fun _ => .inr ⟨_, rfl⟩, fun _ _ => rfl, fun _ => .inr ⟨⟨_, rfl⟩, rfl⟩, fun _ => rfl⟩
  · exact ⟨done.cfg, done.key, fun h => State.readMem_congr (done.mem h) done.cfg,
      fun h => ⟨done.stack h, done.sp h⟩, done.idx, done.dt, done.st, done.disp, fun h => .inl (done.status h), done.regs,
      fun h => .inl (done.pc h), done.draws⟩

end Sys2Proof.Machine
end

section
/-! PROOFS. Everything a step can do, said once, and what follows for every running step: which fault it takes, what the fault
leaves, and when the display is written (40_step_cycle.md R100 to R108, 60_exceptions.md R231 to R236). -/

namespace Sys2Proof.Machine

/-! ## The fault a running step owes -/

section FaultDue

variable {s : State}

theorem faultDue_of_past_limit (past : fetchLimit ≤ s.pc.toNat) : s.faultDue = some .pcOutOfBounds :=
  if_pos past

theorem faultDue_of_refused {e : DecodeError} (inBounds : s.pc.toNat < fetchLimit)
    (refused : decode s.fetchWord = .error e) : s.faultDue = some .illegalOpcode := by
  unfold State.fetchWord at refused
  rw [State.faultDue, if_neg (show ¬0xFFE ≤ _ from Nat.not_le.mpr inBounds), refused]

theorem faultDue_of_decoded {i : Instr} (inBounds : s.pc.toNat < fetchLimit) (decoded : decode s.fetchWord = .ok i) :
    s.faultDue = (s.setPc (s.pc + 2)).execFault i := by
  unfold State.fetchWord at decoded
  rw [State.faultDue, if_neg (show ¬0xFFE ≤ _ from Nat.not_le.mpr inBounds), decoded]
  cases i <;> rfl

/-- The fetch's own fault is due exactly past the limit. -/
theorem pcOutOfBounds_iff_of_faultDue {c : Fault} (due : s.faultDue = some c) :
    c = .pcOutOfBounds ↔ fetchLimit ≤ s.pc.toNat := by
  refine ⟨?_, fun past => ?_⟩
  · rintro rfl
    by_contra inBounds
    rw [Nat.not_le] at inBounds
    cases hd : decode s.fetchWord with
    | error e => simp [faultDue_of_refused inBounds hd] at due
    | ok i => exact execFault_ne_pcOutOfBounds (faultDue_of_decoded inBounds hd ▸ due) rfl
  · rw [faultDue_of_past_limit past] at due
    exact (Option.some.inj due).symm

end FaultDue

/-- The word of a fault record: none for the fetch's own fault (10_state.md R34). -/
def State.faultWord (s : State) (c : Fault) : Option Word :=
  if c = .pcOutOfBounds then none else some s.fetchWord

/-! ## Everything a step can do -/

/-- A running step takes the fault it owes, or it owes none and completes the decoded instruction. -/
theorem step_running_cases {s : State} (running : s.status = .running) :
    (∃ c, s.faultDue = some c ∧ step s = .next (s.enterFault c (s.faultWord c))) ∨
    (s.faultDue = none ∧ s.pc.toNat < fetchLimit ∧ ∃ i t, decode s.fetchWord = .ok i ∧ step s = .next t ∧
      exec i (s.setPc (s.pc + 2)) = .next t ∧ (s.setPc (s.pc + 2)).CompletedBy i t) := by
  rcases step_running s running with ⟨past, e⟩ | ⟨inBounds, ⟨_, refused⟩, e⟩ | ⟨inBounds, i, decoded, e⟩
  · exact .inl ⟨_, faultDue_of_past_limit past, e⟩
  · exact .inl ⟨_, faultDue_of_refused inBounds refused, e⟩
  · have due := faultDue_of_decoded inBounds decoded
    rcases exec_cases i (s.setPc (s.pc + 2)) with ⟨c, hc, e'⟩ | ⟨hc, t, e', done⟩
    · refine .inl ⟨c, due.trans hc, ?_⟩
      rw [e, e', State.taken, State.unfetch_setPc, encode_of_decode decoded, State.faultWord,
        if_neg (execFault_ne_pcOutOfBounds hc)]
    · exact .inr ⟨due.trans hc, inBounds, i, t, decoded, e.trans e', e', done⟩

/-- Everything a step can do, by the status it starts in. -/
theorem step_cases {s t : State} (h : step s = .next t) :
    (∃ r, s.status = .faulted r ∧ t = s) ∨
    (∃ x latch, s.status = .awaitingKey x latch ∧ t = s.waitStep x latch) ∨
    (s.status = .running ∧ ∃ c, s.faultDue = some c ∧ t = s.enterFault c (s.faultWord c)) ∨
    (s.status = .running ∧ s.pc.toNat < fetchLimit ∧ ∃ i, decode s.fetchWord = .ok i ∧
      exec i (s.setPc (s.pc + 2)) = .next t ∧ (s.setPc (s.pc + 2)).CompletedBy i t) := by
  cases hs : s.status with
  | faulted r =>
    rw [step_faulted s r hs] at h
    cases h
    exact .inl ⟨r, rfl, rfl⟩
  | awaitingKey x latch =>
    rw [step_awaiting s x latch hs] at h
    cases h
    exact .inr (.inl ⟨x, latch, rfl, rfl⟩)
  | running =>
    rcases step_running_cases hs with ⟨c, due, e⟩ | ⟨_, inBounds, i, u, decoded, e, he, done⟩ <;> rw [e] at h <;> cases h
    · exact .inr (.inr (.inl ⟨rfl, c, due, rfl⟩))
    · exact .inr (.inr (.inr ⟨rfl, inBounds, i, decoded, he, done⟩))

/-- Every step answers a next state. -/
theorem step_total (s : State) : ∃ t, step s = .next t := by
  cases hs : s.status with
  | faulted r => exact ⟨s, step_faulted s r hs⟩
  | awaitingKey x latch => exact ⟨_, step_awaiting s x latch hs⟩
  | running =>
    rcases step_running_cases hs with ⟨c, _, e⟩ | ⟨_, _, _, t, _, e, _⟩
    · exact ⟨_, e⟩
    · exact ⟨t, e⟩

/-! ## The statements about a running step -/

/-- Settles O6: in bounds the fetch answers, and the decoded word leaves only the instruction's own arm. -/
theorem stepRunsDecodedInstruction : Obligations.StepRunsDecodedInstruction := by
  intro s i running inBounds decoded _
  have decoded : decode s.fetchWord = .ok i := decoded
  rcases step_running s running with ⟨past, _⟩ | ⟨_, ⟨_, refused⟩, _⟩ | ⟨_, j, hj, e⟩
  · exact absurd inBounds (Nat.not_lt.mpr past)
  · rw [refused] at decoded
    cases decoded
  · rw [hj] at decoded
    cases decoded
    exact e

/-- Settles O7: past the limit the fetch raises its fault before it reads. -/
theorem fetchPastTheLimitFaults : Obligations.FetchPastTheLimitFaults := by
  intro s running past
  rcases step_running s running with ⟨_, e⟩ | ⟨inBounds, _⟩ | ⟨inBounds, _⟩
  · exact e
  · exact absurd past (Nat.not_le.mpr inBounds)
  · exact absurd past (Nat.not_le.mpr inBounds)

/-- Settles O8: a running step takes the fault that is due, and completes when none is. -/
theorem faultsAreExactlyThoseListed : Obligations.FaultsAreExactlyThoseListed := by
  intro s running
  rcases step_running_cases running with ⟨c, due, e⟩ | ⟨due, _, _, t, _, e, _, done⟩
  · refine ⟨fun c' due' => ?_, fun none_due => ?_⟩
    · rw [due] at due'
      cases due'
      exact ⟨_, _, e, rfl, rfl, rfl, rfl, rfl⟩
    · rw [due] at none_due
      cases none_due
  · refine ⟨fun c due' => ?_, fun _ => ⟨t, e, done.not_faulted running⟩⟩
    rw [due] at due'
    cases due'

/-- Settles O9, cause by cause: no two have the same code. -/
theorem causesHaveTheirCodes : Obligations.CausesHaveTheirCodes := by
  rintro ⟨cause, pc, word⟩
  cases cause <;> simp [FaultRecord.code, Fault.code]

/-- Settles O44: the fault is taken on the state before the step, so a step from there takes it again. -/
theorem faultingStepChangesOnlyStatus : Obligations.FaultingStepChangesOnlyStatus := by
  intro s t r running h faulted
  rcases step_running_cases running with ⟨c, _, e⟩ | ⟨_, _, _, u, _, e, _, done⟩
  · have ht : t = s.enterFault c (s.faultWord c) := by
      rw [e] at h
      cases h
      rfl
    subst ht
    cases faulted
    refine ⟨rfl, rfl, ?_⟩
    rw [← h, ← running]
    rfl
  · rw [e] at h
    cases h
    exact absurd faulted (done.not_faulted running r)

/-- What a step that does not fault returned is the redraw bit it left. -/
theorem State.stepResult_of_not_faulted {s : State} (h : ∀ r, s.status ≠ .faulted r) : s.stepResult = .ok s.redraw := by
  unfold State.stepResult
  split
  · exact absurd ‹_› (h _)
  · rfl

/-- Settles O53: of the steps that do not fault, a waiting one returns 0 and keeps the display, and a completed instruction
returns 1 exactly when it is one of the two that write the display. -/
theorem redrawExactlyWhenTheDisplayIsWritten : Obligations.RedrawExactlyWhenTheDisplayIsWritten := by
  intro s t b h result
  rcases step_cases h with ⟨r, hs, rfl⟩ | ⟨x, latch, hs, rfl⟩ | ⟨_, c, _, rfl⟩ | ⟨running, _, i, decoded, _, done⟩
  · simp [State.stepResult, hs] at result
  · have returned : (s.waitStep x latch).stepResult = .ok false ∧ (s.waitStep x latch).disp = s.disp := by
      cases latch with
      | none => exact ⟨by simp [State.stepResult, State.waitStep, hs], rfl⟩
      | some k => exact ⟨rfl, rfl⟩
    rw [returned.1] at result
    cases result
    simp [hs, returned.2]
  · cases result
  · rw [State.stepResult_of_not_faulted (done.not_faulted running)] at result
    cases result
    simp only [running, decoded, true_and, Except.ok.injEq]
    refine ⟨done.redraw, fun noRedraw => done.disp fun x y n => ⟨fun cls => ?_, fun drw => ?_⟩⟩
    · exact Bool.false_ne_true (noRedraw ▸ done.redraw.mpr (.inl cls))
    · exact Bool.false_ne_true (noRedraw ▸ done.redraw.mpr (.inr ⟨x, y, n, drw⟩))

end Sys2Proof.Machine
end

section
/-! PROOFS. The caller's operations in any order (40_step_cycle.md R107): every list of them answers a next state, and a
property that each operation keeps is kept by the list. Then the operations of a faulted machine (60_exceptions.md R236), and
the configuration (10_state.md R32). -/

namespace Sys2Proof.Machine

/-! ## Lists of operations -/

theorem BlockOp.run_total (op : BlockOp) (s : State) : ∃ t, op.run s = .next t := by
  cases op with
  | step => exact step_total s
  | tickTimers | setKeys | load => exact ⟨_, rfl⟩

theorem runOps_cons_iff {op : BlockOp} {rest : List BlockOp} {s t : State} :
    runOps (op :: rest) s = .next t ↔ ∃ u, op.run s = .next u ∧ runOps rest u = .next t := by
  obtain ⟨u, hu⟩ := op.run_total s
  rw [runOps_cons hu]
  refine ⟨fun h => ⟨u, hu, h⟩, ?_⟩
  rintro ⟨u', hu', h⟩
  rw [hu] at hu'
  cases hu'
  exact h

theorem runOps_total (ops : List BlockOp) (s : State) : ∃ t, runOps ops s = .next t := by
  induction ops generalizing s with
  | nil => exact ⟨s, rfl⟩
  | cons op rest ih =>
    obtain ⟨u, hu⟩ := op.run_total s
    obtain ⟨t, ht⟩ := ih u
    exact ⟨t, runOps_cons_iff.mpr ⟨u, hu, ht⟩⟩

theorem runOps_append {ops rest : List BlockOp} {s u t : State} (ran : runOps ops s = .next u)
    (ranRest : runOps rest u = .next t) : runOps (ops ++ rest) s = .next t := by
  induction ops generalizing s with
  | nil =>
    cases ran
    exact ranRest
  | cons op ops ih =>
    obtain ⟨v, hv, hrest⟩ := runOps_cons_iff.mp ran
    exact runOps_cons_iff.mpr ⟨v, hv, ih hrest⟩

/-- A property that every listed operation keeps is kept by the list. -/
theorem runOps_keeps {P : State → Prop} {ops : List BlockOp}
    (keeps : ∀ op ∈ ops, ∀ s t, P s → op.run s = .next t → P t) {s t : State} (hs : P s) (h : runOps ops s = .next t) :
    P t := by
  induction ops generalizing s with
  | nil =>
    cases h
    exact hs
  | cons op rest ih =>
    obtain ⟨u, hu, hrest⟩ := runOps_cons_iff.mp h
    exact ih (fun op' mem => keeps op' (List.mem_cons_of_mem op mem)) (keeps op List.mem_cons_self s u hs hu) hrest

/-- Settles O46. -/
theorem everyStepAnswersANextState : Obligations.EveryStepAnswersANextState :=
  fun s => ⟨step_total s, fun ops => runOps_total ops s⟩

/-! ## The operations by whether the machine is faulted -/

section Faulted

variable {s : State}

theorem State.isFaulted_of_status {r : FaultRecord} (h : s.status = .faulted r) : s.isFaulted = true := by
  simp [State.isFaulted, h]

theorem State.tickTimers_of_faulted (h : s.isFaulted = true) : s.tickTimers = s := if_pos h

theorem State.setKeys_of_faulted (h : s.isFaulted = true) (k : Keys) : s.setKeys k = s := if_pos h

theorem State.load_of_faulted (h : s.isFaulted = true) (bytes : List Byte) : s.load bytes = (.machineFaulted, s) := if_pos h

theorem State.tickTimers_of_not_faulted (h : s.isFaulted = false) :
    s.tickTimers = (s.setDt (countDown s.dt)).setSt (countDown s.st) := by
  simp [State.tickTimers, h]

theorem State.setKeys_of_not_faulted (h : s.isFaulted = false) (k : Keys) :
    s.setKeys k = (s.setStatus (latchKey s.key k s.status)).setKey k := by
  simp [State.setKeys, h]

theorem State.load_of_fits {bytes : List Byte} (h : s.isFaulted = false) (fits : bytes.length ≤ 3584) :
    s.load bytes = (.loaded, s.writeBytes progBase bytes) := by
  rw [State.load, if_neg (by simp [h]), if_neg (memSize_sub_progBase ▸ Nat.not_lt.mpr fits)]

end Faulted

theorem BlockOp.run_of_faulted {s : State} {r : FaultRecord} (h : s.status = .faulted r) (op : BlockOp) :
    op.run s = .next s := by
  have faulted := State.isFaulted_of_status h
  cases op with
  | step => exact step_faulted s r h
  | tickTimers => rw [BlockOp.run, State.tickTimers_of_faulted faulted]
  | setKeys k => rw [BlockOp.run, State.setKeys_of_faulted faulted]
  | load bytes => rw [BlockOp.run, State.load_of_faulted faulted]

/-- Settles O45, by induction on the operations, each of which leaves a faulted machine as it is. -/
theorem faultedMachineIsFrozen : Obligations.FaultedMachineIsFrozen := by
  refine fun s r h => ⟨fun ops => ?_, fun bytes => ?_, ?_⟩
  · induction ops with
    | nil => rfl
    | cons op rest ih => exact runOps_cons_iff.mpr ⟨s, BlockOp.run_of_faulted h op, ih⟩
  · rw [State.load_of_faulted (State.isFaulted_of_status h)]
  · simp [State.stepResult, h]

/-! ## The configuration -/

theorem step_cfg {s t : State} (h : step s = .next t) : t.cfg = s.cfg := by
  rcases step_cases h with ⟨_, _, rfl⟩ | ⟨x, latch, _, rfl⟩ | ⟨_, c, _, rfl⟩ | ⟨_, _, i, _, _, done⟩
  · rfl
  · cases latch <;> rfl
  · rfl
  · exact done.cfg

theorem BlockOp.run_cfg {op : BlockOp} {s t : State} (h : op.run s = .next t) : t.cfg = s.cfg := by
  cases op with
  | step => exact step_cfg h
  | tickTimers =>
    cases h
    unfold State.tickTimers
    split <;> rfl
  | setKeys k =>
    cases h
    unfold State.setKeys
    split <;> rfl
  | load bytes =>
    cases h
    unfold State.load
    split
    · rfl
    · split <;> rfl

/-- Settles O51: no operation writes the configuration, so no list of them does. -/
theorem configurationNeverChanges : Obligations.ConfigurationNeverChanges := fun s _ _ h =>
  runOps_keeps (P := fun u => u.cfg = s.cfg) (fun _ _ _ _ same ran => (BlockOp.run_cfg ran).trans same) rfl h

end Sys2Proof.Machine
end

section
/-! PROOFS. The invariant (10_state.md R23, 20_memory.md R62, 10_state.md R34): a constructed block meets it, and every operation
of the caller keeps it. -/

namespace Sys2Proof.Machine

/-! ## What a completed instruction keeps of it -/

section Completed

variable {i : Instr} {s t : State}

/-- FX33 and FX55 write inside memory, and no other instruction writes it. -/
theorem exec_memWf (h : exec i s = .next t) (done : s.CompletedBy i t) (wf : s.mem.wf s.cfg.font) :
    t.mem.wf t.cfg.font := by
  by_cases hi : ∀ x, i ≠ .ldBVx x ∧ i ≠ .ldMemVx x
  · rw [done.mem hi, done.cfg]
    exact wf
  · cases i
    case ldBVx x =>
      rcases execLdBVx_cases x s with ⟨inside, e⟩ | ⟨_, e⟩ <;> cases e.symm.trans h
      · exact Memory.wf_writeBytes _ wf inside
      · exact wf
    case ldMemVx x =>
      rcases execLdMemVx_cases x s with ⟨inside, e⟩ | ⟨_, e⟩ <;> cases e.symm.trans h
      · exact Memory.wf_writeBytes _ wf (by rw [State.length_readBlock]; exact inside)
      · exact wf
    all_goals simp at hi

/-- CALL pushes the advanced `pc`, which a fetch keeps below 0x1000, and no other instruction writes a stack entry. -/
theorem exec_stackBound (h : exec i s = .next t) (done : s.CompletedBy i t) (high : s.pc.toNat ≤ 0xFFF)
    (bound : ∀ j : Fin 16, s.stack[j].toNat ≤ 0xFFF) (j : Fin 16) : t.stack[j].toNat ≤ 0xFFF := by
  by_cases hi : ∀ nnn, i ≠ .call nnn
  · rw [done.stack hi]
    exact bound j
  · push Not at hi
    obtain ⟨nnn, rfl⟩ := hi
    rcases execCall_cases nnn s with ⟨_, e⟩ | ⟨_, e⟩ <;> cases e.symm.trans h
    · simp only [State.setRedraw_stack, State.setPc_stack, State.setStack_stack, Fin.getElem_fin, Vector.getElem_set]
      split
      · exact high
      · exact bound j
    · exact bound j

theorem word_add_two_toNat_le (w : Word) : (w + 2).toNat ≤ w.toNat + 2 := by
  rw [BitVec.toNat_add]
  exact Nat.mod_le _ _

/-- A key skip, on either answer, passes over at most one word. -/
theorem ite_add_two_toNat_le (w : Word) (p : Prop) [Decidable p] :
    (if p then w + 2 else w).toNat ≤ w.toNat + 2 ∧ (if p then w else w + 2).toNat ≤ w.toNat + 2 := by
  have := word_add_two_toNat_le w
  split <;> omega

/-- A skip passes over at most one word. -/
theorem State.skipIf_pc_le (s : State) (b : Bool) : (s.skipIf b).pc.toNat ≤ s.pc.toNat + 2 := by
  cases b
  · exact Nat.le_add_right _ _
  · exact word_add_two_toNat_le s.pc

theorem widen_toNat (b : Byte) : (widen b).toNat = b.toNat := BitVec.toNat_setWidth_of_le (by decide)

/-- BNNN reaches at most 0xFFF + 0xFF (10_state.md R23). -/
theorem State.jumpTarget_le (s : State) (nnn : Addr12) : (s.jumpTarget nnn).toNat ≤ 0x10FE := by
  have hn := nnn.isLt
  have hv := (s.jumpOffset nnn).isLt
  rw [State.jumpTarget, BitVec.toNat_add, addressOf_toNat, widen_toNat]
  omega

/-- After a fetch, and with no entry of the stack above 0xFFF, no instruction takes `pc` above 0x10FE. -/
theorem exec_pcBound (h : exec i s = .next t) (done : s.CompletedBy i t) (low : 2 ≤ s.pc.toNat)
    (high : s.pc.toNat ≤ 0xFFF) (bound : ∀ j : Fin 16, s.stack[j].toNat ≤ 0xFFF) : t.pc.toNat ≤ 0x10FE := by
  have back : (s.pc - 2).toNat ≤ 0x10FE := by bv_omega
  cases i
  case ret =>
    rcases execRet_cases s with ⟨nonempty, e⟩ | ⟨_, e⟩ <;> cases e.symm.trans h
    · have := bound ⟨s.sp.val - 1, by omega⟩
      exact this.trans (by decide)
    · exact back
  case call nnn =>
    rcases execCall_cases nnn s with ⟨_, e⟩ | ⟨_, e⟩ <;> cases e.symm.trans h
    · have := nnn.isLt
      simp only [State.setRedraw_pc, State.setPc_pc, addressOf_toNat]
      omega
    · exact back
  case skp x =>
    rcases execSkp_cases x s with ⟨_, e⟩ | ⟨_, e⟩ <;> cases e.symm.trans h
    · exact (ite_add_two_toNat_le s.pc _).1.trans (by omega)
    · exact back
  case sknp x =>
    rcases execSknp_cases x s with ⟨_, e⟩ | ⟨_, e⟩ <;> cases e.symm.trans h
    · exact (ite_add_two_toNat_le s.pc _).2.trans (by omega)
    · exact back
  case jp nnn =>
    cases h
    have := nnn.isLt
    simp only [State.setRedraw_pc, State.setPc_pc, addressOf_toNat]
    omega
  case jpV0 nnn =>
    cases h
    exact s.jumpTarget_le nnn
  case seImm | sneImm | seReg | sneReg =>
    cases h
    exact (s.skipIf_pc_le _).trans (by omega)
  case ldVxK x =>
    rw [(done.wait x rfl).2]
    exact back
  all_goals
    rw [done.pc id]
    omega

end Completed

/-! ## The steps -/

/-- A waiting step moves past the FX0A at most, and leaves no wait behind when it does. -/
theorem waitStep_inv {s : State} {x : Nibble} {latch : Option (Fin 16)} (inv : s.Inv)
    (waiting : s.status = .awaitingKey x latch) : (s.waitStep x latch).Inv := by
  obtain ⟨memWf, pcBound, stackBound, waitPc, record⟩ := inv
  cases latch with
  | none => exact ⟨memWf, pcBound, stackBound, waitPc, record⟩
  | some k =>
    have hpc := waitPc x _ waiting
    have := word_add_two_toNat_le s.pc
    simp only [fetchLimit] at hpc
    exact ⟨memWf, show (s.pc + 2).toNat ≤ _ by omega, stackBound, fun _ _ h => (nomatch h),
      fun _ h => nomatch h⟩

/-- A fault leaves the state its record speaks of. -/
theorem enterFault_inv {s : State} {c : Fault} (inv : s.Inv) (due : s.faultDue = some c) :
    (s.enterFault c (s.faultWord c)).Inv := by
  obtain ⟨memWf, pcBound, stackBound, _, _⟩ := inv
  refine ⟨memWf, pcBound, stackBound, fun _ _ h => (nomatch h), fun r h => ?_⟩
  cases h
  refine ⟨rfl, fun past => ⟨(pcOutOfBounds_iff_of_faultDue due).mp past, if_pos past⟩, fun inBounds => ⟨?_, if_neg inBounds⟩⟩
  exact Nat.lt_of_not_le (mt (pcOutOfBounds_iff_of_faultDue due).mpr inBounds)

theorem completed_inv {s t : State} {i : Instr} (inv : s.Inv) (running : s.status = .running)
    (inBounds : s.pc.toNat < fetchLimit) (h : exec i (s.setPc (s.pc + 2)) = .next t)
    (done : (s.setPc (s.pc + 2)).CompletedBy i t) : t.Inv := by
  obtain ⟨memWf, _, stackBound, _, _⟩ := inv
  simp only [fetchLimit] at inBounds
  have fetched : (s.pc + 2).toNat = s.pc.toNat + 2 := by bv_omega
  refine ⟨exec_memWf h done memWf, ?_, exec_stackBound h done ?_ stackBound, fun x latch waits => ?_,
    fun r faulted => absurd faulted (done.not_faulted running r)⟩
  · exact exec_pcBound h done (by simp only [State.setPc_pc]; omega) (by simp only [State.setPc_pc]; omega) stackBound
  · simp only [State.setPc_pc]
    omega
  · by_cases hi : ∃ y, i = .ldVxK y
    · obtain ⟨y, rfl⟩ := hi
      rw [(done.wait y rfl).2, State.setPc_pc, BitVec.add_sub_cancel]
      exact inBounds
    · rw [done.status (not_exists.mp hi), State.setPc_status, running] at waits
      cases waits

theorem step_inv {s t : State} (inv : s.Inv) (h : step s = .next t) : t.Inv := by
  rcases step_cases h with ⟨_, _, rfl⟩ | ⟨x, latch, waiting, rfl⟩ | ⟨_, c, due, rfl⟩ | ⟨running, inBounds, i, _, ran, done⟩
  · exact inv
  · exact waitStep_inv inv waiting
  · exact enterFault_inv inv due
  · exact completed_inv inv running inBounds ran done

/-- Settles O47, by what a step can do. -/
theorem stepKeepsTheInvariant : Obligations.StepKeepsTheInvariant := fun _ _ => step_inv

/-! ## The other operations -/

/-- A tick writes the timers, which the invariant does not speak of. -/
theorem tickTimers_inv {s : State} (inv : s.Inv) : s.tickTimers.Inv := by
  obtain ⟨memWf, pcBound, stackBound, waitPc, record⟩ := inv
  unfold State.tickTimers
  split <;> exact ⟨memWf, pcBound, stackBound, waitPc, record⟩

/-- A key update turns a waiting status into a waiting status, and keeps any other. -/
theorem latchKey_cases (before k : Keys) (status : Status) :
    latchKey before k status = status ∨
    ∃ x, status = .awaitingKey x none ∧ latchKey before k status = .awaitingKey x (newlyPressed before k) := by
  unfold latchKey
  split
  · exact .inr ⟨_, rfl, rfl⟩
  · exact .inl rfl

theorem setKeys_inv {s : State} (inv : s.Inv) (k : Keys) : (s.setKeys k).Inv := by
  obtain ⟨memWf, pcBound, stackBound, waitPc, record⟩ := inv
  cases hf : s.isFaulted with
  | true =>
    rw [State.setKeys_of_faulted hf]
    exact ⟨memWf, pcBound, stackBound, waitPc, record⟩
  | false =>
    rw [State.setKeys_of_not_faulted hf]
    rcases latchKey_cases s.key k s.status with e | ⟨x, waiting, e⟩ <;> rw [e]
    · exact ⟨memWf, pcBound, stackBound, waitPc, record⟩
    · exact ⟨memWf, pcBound, stackBound, fun _ _ _ => waitPc x none waiting, fun _ h => nomatch h⟩

/-- A load that is not rejected writes inside memory and finds no fault record, whose word it could overwrite. -/
theorem load_inv {s : State} (inv : s.Inv) (bytes : List Byte) : (s.load bytes).2.Inv := by
  cases hf : s.isFaulted with
  | true =>
    rw [State.load_of_faulted hf]
    exact inv
  | false =>
    by_cases fits : bytes.length ≤ 3584
    · obtain ⟨memWf, pcBound, stackBound, waitPc, _⟩ := inv
      rw [State.load_of_fits hf fits]
      exact ⟨Memory.wf_writeBytes bytes memWf (by simp only [progBase, memSize]; omega), pcBound, stackBound, waitPc,
        fun r h => absurd h (s.isFaulted_eq_false_iff.mp hf r)⟩
    · rw [State.load_of_oversize hf (memSize_sub_progBase ▸ Nat.lt_of_not_le fits)]
      exact inv

theorem BlockOp.run_inv {op : BlockOp} {s t : State} (inv : s.Inv) (h : op.run s = .next t) : t.Inv := by
  cases op with
  | step => exact step_inv inv h
  | tickTimers =>
    cases h
    exact tickTimers_inv inv
  | setKeys k =>
    cases h
    exact setKeys_inv inv k
  | load bytes =>
    cases h
    exact load_inv inv bytes

/-- Settles O48, by induction on the operations. -/
theorem everyInterleavingKeepsTheInvariant : Obligations.EveryInterleavingKeepsTheInvariant := fun _ _ _ inv h =>
  runOps_keeps (fun _ _ _ _ inv ran => BlockOp.run_inv inv ran) inv h

/-! ## The constructed block -/

theorem construct_inv (cfg : Config) : (State.construct cfg).Inv where
  memWf := Memory.wf_nil
  pcBound := show (BitVec.ofNat 16 progBase).toNat ≤ 0x10FE by decide
  stackBound j := by simp [State.construct]
  waitPc _ _ h := nomatch h
  record _ h := nomatch h

/-- Settles O49. -/
theorem constructMeetsTheInvariant : Obligations.ConstructMeetsTheInvariant :=
  ⟨construct_inv, construct_inv resetConfig⟩

/-- Settles O50: memory lists nothing and reads as the reset contents, and every other element is written out in
`construct`. -/
theorem constructLeavesTheResetValues : Obligations.ConstructLeavesTheResetValues := by
  rintro cfg _ rfl
  exact ⟨rfl, resetByte_font, resetByte_zero, fun x => by simp [State.readV, State.construct], rfl, rfl, rfl,
    fun j => by simp [State.construct], rfl, rfl, Display.pix_clear, fun j => by simp [State.construct], rfl⟩

end Sys2Proof.Machine
end

section
/-! PROOFS. The timers' tick, the key state, the key skips and the key wait (45_timers_keys.md R213 to R220). -/

namespace Sys2Proof.Machine

/-! ## The tick -/

theorem countDown_toNat (b : Byte) : (countDown b).toNat = b.toNat - 1 := by
  unfold countDown
  split <;> bv_omega

/-- Settles O38: a tick of a machine that is not faulted writes the two timers, and `countDown` saturates at 0. -/
theorem tickDecrementsBothTimers : Obligations.TickDecrementsBothTimers := by
  refine fun s => ⟨fun notFaulted => ?_, fun r h => State.tickTimers_of_faulted (State.isFaulted_of_status h)⟩
  rw [State.tickTimers_of_not_faulted (s.isFaulted_eq_false_iff.mpr notFaulted)]
  exact ⟨rfl, countDown_toNat s.dt, countDown_toNat s.st⟩

/-! ## The key skips -/

/-- Settles O39: the two outcomes of each skip, by whether VX names a key. -/
theorem keySkipsReadTheKeyState : Obligations.KeySkipsReadTheKeyState := by
  refine fun s x => ⟨fun named => ⟨?_, ?_⟩, fun above => ⟨?_, ?_⟩⟩
  · rcases execSkp_cases x s with ⟨_, e⟩ | ⟨h, _⟩
    · exact ⟨_, e, rfl, rfl, fun _ => rfl⟩
    · exact absurd named (Nat.not_lt.mpr h)
  · rcases execSknp_cases x s with ⟨_, e⟩ | ⟨h, _⟩
    · exact ⟨_, e, rfl, rfl, fun _ => rfl⟩
    · exact absurd named (Nat.not_lt.mpr h)
  · rcases execSkp_cases x s with ⟨h, _⟩ | ⟨_, e⟩
    · exact absurd h (Nat.not_lt.mpr above)
    · exact e.trans (congrArg _ (s.taken_eq_faultedBy _ _ (wordFXNN_eq_ofNat 0xE#4 x 0x9E#8)))
  · rcases execSknp_cases x s with ⟨h, _⟩ | ⟨_, e⟩
    · exact absurd h (Nat.not_lt.mpr above)
    · exact e.trans (congrArg _ (s.taken_eq_faultedBy _ _ (wordFXNN_eq_ofNat 0xE#4 x 0xA1#8)))

/-! ## The key state -/

/-- The least key newly pressed is the one found. -/
theorem newlyPressed_eq_some {before k : Keys} {i : Fin 16} (down : k[i] = true) (up : before[i] = false)
    (least : ∀ j : Fin 16, j < i → ¬(k[j] = true ∧ before[j] = false)) : newlyPressed before k = some i := by
  rw [newlyPressed, List.find?_eq_some_iff_getElem]
  refine ⟨by simpa [up] using down, i.val, by simp, by simp, fun j hj => ?_⟩
  have := least ⟨j, by omega⟩ hj
  simpa [imp_iff_not_or] using this

theorem newlyPressed_eq_none {before k : Keys} (noPress : ∀ i : Fin 16, ¬(k[i] = true ∧ before[i] = false)) :
    newlyPressed before k = none := by
  rw [newlyPressed, List.find?_eq_none]
  intro i _
  simpa using noPress i

theorem setKeys_status {s : State} (h : s.isFaulted = false) (k : Keys) :
    (s.setKeys k).status = latchKey s.key k s.status := by
  rw [State.setKeys_of_not_faulted h]
  rfl

theorem State.isFaulted_of_waiting {s : State} {x : Nibble} {latch : Option (Fin 16)}
    (h : s.status = .awaitingKey x latch) : s.isFaulted = false := by
  simp [State.isFaulted, h]

/-- A key update of a machine that waits with an empty latch. -/
theorem setKeys_waiting {s : State} {x : Nibble} (h : s.status = .awaitingKey x none) (k : Keys) :
    s.setKeys k = (s.setStatus (.awaitingKey x (newlyPressed s.key k))).setKey k := by
  rw [State.setKeys_of_not_faulted (State.isFaulted_of_waiting h), h]
  rfl

/-- Settles O42. -/
theorem setKeysLatchesTheLeastNewPress : Obligations.SetKeysLatchesTheLeastNewPress := by
  refine fun s k => ⟨fun notFaulted => ?_, fun r h => State.setKeys_of_faulted (State.isFaulted_of_status h) k,
    fun x waiting => ⟨fun i down up least => ?_, fun noPress => ?_⟩, fun noEmptyLatch => ?_⟩
  · rw [State.setKeys_of_not_faulted (s.isFaulted_eq_false_iff.mpr notFaulted)]
    rfl
  · rw [setKeys_waiting waiting, newlyPressed_eq_some down up least]
    rfl
  · rw [setKeys_waiting waiting, newlyPressed_eq_none noPress]
    rfl
  · cases hf : s.isFaulted with
    | true => rw [State.setKeys_of_faulted hf]
    | false =>
      rw [setKeys_status hf]
      rcases latchKey_cases s.key k s.status with e | ⟨x, waiting, _⟩
      · exact e
      · exact absurd waiting (noEmptyLatch x)

/-! ## The key wait -/

/-- Settles O40: the write of `pc` undoes the fetch, and the status begins the wait. -/
theorem waitForKeyStartsTheWait : Obligations.WaitForKeyStartsTheWait := fun _ _ => rfl

/-- The step that completes a wait writes the latched key into VX. -/
theorem waitStep_latched (s : State) (x : Nibble) (k : Fin 16) (r : Nibble) :
    ((s.waitStep x (some k)).readV r).toNat = if r = x then k.val else (s.readV r).toNat := by
  have hk : (BitVec.ofNat 8 k.val).toNat = k.val := by
    rw [BitVec.toNat_ofNat]
    omega
  simp only [State.waitStep, State.readV_setRedraw, State.readV_setStatus, State.readV_setPc, State.readV_writeV]
  split
  · exact hk
  · rfl

/-- Settles O41, by the latch. -/
theorem waitingStepCompletesOnTheLatch : Obligations.WaitingStepCompletesOnTheLatch := by
  refine fun s x => ⟨fun waiting => step_awaiting s x none waiting, fun k waiting => ?_⟩
  exact ⟨s.waitStep x (some k), step_awaiting s x _ waiting, rfl, rfl, waitStep_latched s x k⟩

/-- What steps and ticks may change while `s` waits with an empty latch: the timers and the redraw bit. -/
def State.WaitedFrom (s t : State) : Prop := ∃ dt st redraw, t = ((s.setDt dt).setSt st).setRedraw redraw

theorem State.WaitedFrom.status {s t : State} (h : s.WaitedFrom t) : t.status = s.status := by
  obtain ⟨_, _, _, rfl⟩ := h
  rfl

theorem State.WaitedFrom.key {s t : State} (h : s.WaitedFrom t) : t.key = s.key := by
  obtain ⟨_, _, _, rfl⟩ := h
  rfl

theorem State.WaitedFrom.readV {s t : State} (h : s.WaitedFrom t) (r : Nibble) : t.readV r = s.readV r := by
  obtain ⟨_, _, _, rfl⟩ := h
  rfl

/-- Steps and ticks leave a wait as it is while no key is pressed. -/
theorem waitedFrom_run {s t u : State} {x : Nibble} (waiting : s.status = .awaitingKey x none) (waited : s.WaitedFrom t)
    {op : BlockOp} (hop : op = .step ∨ op = .tickTimers) (h : op.run t = .next u) : s.WaitedFrom u := by
  have stillWaiting := waited.status.trans waiting
  obtain ⟨dt, st, redraw, rfl⟩ := waited
  rcases hop with rfl | rfl
  · have e := (step_awaiting _ x none stillWaiting).symm.trans h
    cases e
    exact ⟨dt, st, false, rfl⟩
  · have e := State.tickTimers_of_not_faulted (State.isFaulted_of_waiting stillWaiting)
    cases h
    exact ⟨countDown dt, countDown st, redraw, e⟩

/-- A press and a step complete a wait with an empty latch. -/
theorem press_step_completes {s : State} {x : Nibble} {k : Keys} {i : Fin 16} (waiting : s.status = .awaitingKey x none)
    (pressed : newlyPressed s.key k = some i) :
    runOps [.setKeys k, .step] s = .next (((s.setStatus (.awaitingKey x (some i))).setKey k).waitStep x (some i)) := by
  have latches : s.setKeys k = (s.setStatus (.awaitingKey x (some i))).setKey k := by rw [setKeys_waiting waiting, pressed]
  refine runOps_cons_iff.mpr ⟨_, rfl, runOps_cons_iff.mpr ⟨_, ?_, rfl⟩⟩
  rw [latches]
  exact step_awaiting ((s.setStatus (.awaitingKey x (some i))).setKey k) x (some i) rfl

/-- Settles O43: the first step begins the wait, the steps and ticks leave it, the key update fills the latch, and the last
step completes it. -/
theorem keyWaitEndsWithTheKey : Obligations.KeyWaitEndsWithTheKey := by
  intro s x k i waits running inBounds decoded stepsAndTicks down up least
  have begins : step s = .next ((s.setStatus (.awaitingKey x none)).setRedraw false) := by
    rw [stepRunsDecodedInstruction s _ running inBounds decoded rfl, waitForKeyStartsTheWait]
    simp [State.setStatus, State.setRedraw]
  obtain ⟨u, hu⟩ := runOps_total waits ((s.setStatus (.awaitingKey x none)).setRedraw false)
  have waited : State.WaitedFrom ((s.setStatus (.awaitingKey x none)).setRedraw false) u :=
    runOps_keeps (fun op mem _ _ waited ran => waitedFrom_run rfl waited (stepsAndTicks op mem) ran)
      ⟨s.dt, s.st, false, rfl⟩ hu
  have ends := press_step_completes waited.status (waited.key ▸ newlyPressed_eq_some down up least)
  refine ⟨_, runOps_cons_iff.mpr ⟨_, begins, runOps_append hu ends⟩, ?_, fun r => ?_⟩
  · obtain ⟨_, _, _, rfl⟩ := waited
    simp only [State.waitStep, State.writeV, State.setRegs, State.setPc, State.setStatus, State.setRedraw, State.setKey,
      State.setDt, State.setSt, running]
  · rw [waitStep_latched, State.readV_setKey, State.readV_setStatus, waited.readV]
    rfl

end Sys2Proof.Machine
end

section
/-! PROOFS. The logical operations, the reversed subtraction, the shifts and RND (42_register_alu.md R151 to R162): each is the
`finish` of a write to VX, those with a flag of a write to VX and then to VF. -/

namespace Sys2Proof.Machine

/-- An instruction that only writes VX, with the value it wrote. -/
theorem finish_writeV_value (s : State) (x : Nibble) (b : Byte) (redraw : Bool) :
    ∃ t, finish redraw (s.writeV x b) = .next t ∧ t.readV x = b ∧
      s.changesOnlyRegs t (fun k => if k = x then t.readV x else s.readV k) := by
  obtain ⟨t, e, frame, regs, mem⟩ := finish_writeV_changesOnlyRegs s x b redraw
  have value : t.readV x = b := (regs x).trans (if_pos rfl)
  exact ⟨t, e, value, frame, fun k => value ▸ regs k, mem⟩

/-- Settles O18: each writes VX once, with the operation on bytes that is the one on their bits. -/
theorem logicWritesOneRegister : Obligations.LogicWritesOneRegister := by
  refine fun s x y => ⟨?or, ?and, ?xor⟩
  case or =>
    obtain ⟨t, e, value, frame⟩ := finish_writeV_value s x (s.readV x ||| s.readV y) false
    exact ⟨t, e, fun j => by rw [value, BitVec.getLsbD_or], frame⟩
  case and =>
    obtain ⟨t, e, value, frame⟩ := finish_writeV_value s x (s.readV x &&& s.readV y) false
    exact ⟨t, e, fun j => by rw [value, BitVec.getLsbD_and], frame⟩
  case xor =>
    obtain ⟨t, e, value, frame⟩ := finish_writeV_value s x (s.readV x ^^^ s.readV y) false
    exact ⟨t, e, fun j => by rw [value, BitVec.getLsbD_xor], frame⟩

/-- Settles O22: the difference modulo 256 is written to VX, then whether there was no borrow to VF. -/
theorem subtractReversedSetsNoBorrowLast : Obligations.SubtractReversedSetsNoBorrowLast := by
  intro s x y
  rw [← byte_sub_eq_ofInt]
  exact finish_writeFlag_changesOnlyRegs s x (s.readV y - s.readV x) ((s.readV y).toNat ≥ (s.readV x).toNat) false

/-! ## The shifts -/

section Shifts

variable (src : Byte)

theorem shiftRightFlag_eq : shiftRightFlag src = decide (src.toNat % 2 = 1) := by
  simp [shiftRightFlag, BitVec.getLsbD, Nat.testBit_zero]

theorem shiftLeftFlag_eq : shiftLeftFlag src = decide (src.toNat / 128 = 1) := by
  have := src.isLt
  simp only [shiftLeftFlag, BitVec.getLsbD, Nat.testBit_eq_decide_div_mod_eq, decide_eq_decide]
  omega

theorem shiftRight_eq_ofNat : src >>> 1 = BitVec.ofNat 8 (src.toNat / 2) := by
  apply BitVec.eq_of_toNat_eq
  rw [BitVec.toNat_ushiftRight, BitVec.toNat_ofNat, Nat.shiftRight_eq_div_pow]
  omega

theorem shiftLeft_eq_ofNat : src <<< 1 = BitVec.ofNat 8 (src.toNat * 2 % 256) := by
  apply BitVec.eq_of_toNat_eq
  rw [BitVec.toNat_shiftLeft, BitVec.toNat_ofNat, Nat.shiftLeft_eq]
  omega

end Shifts

/-- Settles O23: halving or doubling the source is written to VX, then the bit shifted out to VF. -/
theorem shiftsSetTheBitShiftedOut : Obligations.ShiftsSetTheBitShiftedOut := by
  intro s x y src hsrc
  have source : s.shiftSource x y = src := hsrc.symm
  refine ⟨?right, ?left⟩
  case right =>
    rw [exec, execShr, source, shiftRightFlag_eq, shiftRight_eq_ofNat]
    exact finish_writeFlag_changesOnlyRegs s x _ (src.toNat % 2 = 1) false
  case left =>
    rw [exec, execShl, source, shiftLeftFlag_eq, shiftLeft_eq_ofNat]
    exact finish_writeFlag_changesOnlyRegs s x _ (src.toNat / 128 = 1) false

/-! ## The random byte -/

/-- Settles O24: the free byte, masked, is the one write, so no bit outside the mask is set. -/
theorem randomByteIsMasked : Obligations.RandomByteIsMasked := by
  intro s x nn
  have regs := fun r => s.readV_writeV x r (s.randomByte &&& nn)
  refine ⟨((s.writeV x (s.randomByte &&& nn)).countDraw).setRedraw false, rfl, rfl, regs, ?_, fun _ => rfl⟩
  have value : ((s.writeV x (s.randomByte &&& nn)).countDraw.setRedraw false).readV x = s.randomByte &&& nn :=
    (regs x).trans (if_pos rfl)
  rw [value, BitVec.and_assoc, BitVec.and_not_self]
  exact BitVec.and_zero

end Sys2Proof.Machine
end

section
/-! PROOFS. BNNN, CALL and RET (41_control_flow.md R121, R123, R129), and the chain of nested calls that fills the stack. -/

namespace Sys2Proof.Machine

/-! ## BNNN -/

/-- The top nibble of an address. -/
theorem extractLsb'_8_4_eq_ofNat (nnn : Addr12) : nnn.extractLsb' 8 4 = BitVec.ofNat 4 (nnn.toNat / 256) := by
  apply BitVec.eq_of_toNat_eq
  simp [Nat.shiftRight_eq_div_pow]

theorem jumpTarget_eq_ofNat (s : State) (nnn : Addr12) :
    s.jumpTarget nnn = BitVec.ofNat 16 (nnn.toNat + (s.jumpOffset nnn).toNat) := by
  apply BitVec.eq_of_toNat_eq
  rw [State.jumpTarget, BitVec.toNat_add, addressOf_toNat, widen_toNat, BitVec.toNat_ofNat]

theorem jumpOffset_toNat (s : State) (nnn : Addr12) :
    (s.jumpOffset nnn).toNat = if s.cfg.jumpOffsetUsesVx then (s.readV (BitVec.ofNat 4 (nnn.toNat / 256))).toNat
      else (s.readV 0).toNat := by
  rw [State.jumpOffset, extractLsb'_8_4_eq_ofNat]
  split <;> rfl

/-- Settles O12: the jump is a single write to `pc`, of the address plus the chosen register. -/
theorem jumpOffsetAddsTheChosenRegister : Obligations.JumpOffsetAddsTheChosenRegister := by
  intro s nnn
  rw [← jumpOffset_toNat, ← jumpTarget_eq_ofNat]
  exact finish_setPc_changesOnlyPc s (s.jumpTarget nnn) false

/-! ## CALL and RET -/

/-- Settles O13: the two outcomes of CALL, by whether the stack is full. -/
theorem callPushesReturnAddress : Obligations.CallPushesReturnAddress := by
  refine fun s nnn => ⟨fun room => ?_, fun full => ?_⟩
  · rcases execCall_cases nnn s with ⟨_, e⟩ | ⟨full, _⟩
    · refine ⟨_, e, rfl, addressOf_toNat nnn, rfl, fun j => ?_, fun _ => rfl⟩
      simp [Vector.getElem_set, eq_comm]
    · omega
  · rcases execCall_cases nnn s with ⟨room, _⟩ | ⟨_, e⟩
    · omega
    · exact e.trans (congrArg _ (s.taken_eq_faultedBy _ _ rfl))

/-- Settles O14: the two outcomes of RET, by whether the stack is empty. -/
theorem returnPopsTheStack : Obligations.ReturnPopsTheStack := by
  refine fun s => ⟨fun j depth => ?_, fun empty => ?_⟩
  · rcases execRet_cases s with ⟨_, e⟩ | ⟨empty, _⟩
    · refine ⟨_, e, rfl, ?_, ?_, fun _ => rfl⟩
      · simp [depth]
      · simp [depth]
    · omega
  · rcases execRet_cases s with ⟨nonempty, _⟩ | ⟨_, e⟩
    · exact absurd empty nonempty
    · exact e.trans (congrArg _ (s.taken_eq_faultedBy _ _ rfl))

/-- Settles O15: RET pops the entry that CALL pushed. -/
theorem returnUndoesCall : Obligations.ReturnUndoesCall := by
  intro s nnn room
  obtain ⟨t, e, _, _, depth, entries, _⟩ := (callPushesReturnAddress s nnn).1 room
  refine ⟨t, e, fun u sameDepth sameStack => ?_⟩
  obtain ⟨w, e', frame, pc, depth', _⟩ := (returnPopsTheStack u).1 ⟨s.sp.val, room⟩ (sameDepth ▸ depth)
  refine ⟨w, e', ?_, Fin.ext depth', by rw [frame]⟩
  rw [pc, sameStack, entries, if_pos rfl]

/-! ## Nested calls -/

/-- Whether memory holds a chain of calls depends on what memory reads as. -/
theorem callChain_congr {s t : State} (same : ∀ a, t.readMem a = s.readMem a) (a : Word) (targets : List Addr12) :
    t.callChain a targets = s.callChain a targets := by
  induction targets generalizing a with
  | nil => rfl
  | cons nnn rest ih => simp only [State.callChain, same, ih]

/-- What a chain of calls holds at its start. -/
theorem callChain_cons {s : State} {a : Word} {nnn : Addr12} {rest : List Addr12} :
    s.callChain a (nnn :: rest) = true ↔ a.toNat < 0xFFE ∧
      decode (wordOfBytes (s.readMem a.toNat) (s.readMem (a.toNat + 1))) = .ok (.call nnn) ∧
      s.callChain (BitVec.ofNat 16 nnn.toNat) rest = true := by
  simp [State.callChain, and_assoc]

theorem callSites_cons (a : Word) (nnn : Addr12) (rest : List Addr12) :
    callSites a (nnn :: rest) = a :: callSites (BitVec.ofNat 16 nnn.toNat) rest := rfl

/-- A step that fetches a CALL with room on the stack. -/
theorem step_call {s : State} {nnn : Addr12} (running : s.status = .running) (inBounds : s.pc.toNat < 0xFFE)
    (decoded : decode (wordOfBytes (s.readMem s.pc.toNat) (s.readMem (s.pc.toNat + 1))) = .ok (.call nnn))
    (room : s.sp.val < 16) :
    ∃ t, step s = .next t ∧ t = { s with pc := BitVec.ofNat 16 nnn.toNat, sp := t.sp, stack := t.stack, redraw := false } ∧
      t.sp.val = s.sp.val + 1 ∧
      ∀ j : Fin 16, t.stack[j] = if j.val = s.sp.val then s.pc + 2 else s.stack[j] := by
  rw [stepRunsDecodedInstruction s _ running inBounds decoded rfl]
  obtain ⟨t, e, frame, pc, depth, entries, _⟩ := (callPushesReturnAddress { s with pc := s.pc + 2 } nnn).1 room
  have target : t.pc = BitVec.ofNat 16 nnn.toNat := by
    rw [← pc, BitVec.ofNat_toNat, BitVec.setWidth_eq]
  exact ⟨t, e, target ▸ frame, depth, entries⟩

/-- A step that fetches a CALL on a full stack. -/
theorem step_call_full {s : State} {nnn : Addr12} (running : s.status = .running) (inBounds : s.pc.toNat < 0xFFE)
    (decoded : decode (wordOfBytes (s.readMem s.pc.toNat) (s.readMem (s.pc.toNat + 1))) = .ok (.call nnn))
    (full : s.sp.val = 16) :
    step s = .next { s with
      status := .faulted
        { cause := .stackOverflow, pc := s.pc, word := some (BitVec.ofNat 16 (0x2000 + nnn.toNat)) } } := by
  rw [stepRunsDecodedInstruction s _ running inBounds decoded rfl,
    (callPushesReturnAddress { s with pc := s.pc + 2 } nnn).2 full]
  simp [State.faultedBy]

/-- Settles O16, by induction on the calls that succeed. -/
theorem sixteenNestedCallsThenOverflow : Obligations.SixteenNestedCallsThenOverflow := by
  intro s targets last
  induction targets generalizing s with
  | nil =>
    intro running depth chain
    obtain ⟨inBounds, decoded, _⟩ := callChain_cons.mp chain
    have full : s.sp.val = 16 := depth
    exact ⟨s, rfl, rfl, full, fun _ _ => rfl, fun _ _ h => absurd h (Nat.not_lt_zero _), rfl,
      step_call_full running inBounds decoded full⟩
  | cons nnn rest ih =>
    intro running depth chain
    rw [List.length_cons] at depth
    obtain ⟨inBounds, decoded, chain⟩ := callChain_cons.mp chain
    obtain ⟨u, called, frame, depth', entries⟩ := step_call running inBounds decoded (by omega)
    have sameMem : ∀ a, u.readMem a = s.readMem a := fun a => State.readMem_congr (by rw [frame]) (by rw [frame]) a
    have target : u.pc = BitVec.ofNat 16 nnn.toNat := by rw [frame]
    obtain ⟨t, ran, frame', full, kept, pushed, lands, overflow⟩ := ih u (by rw [frame]; exact running) (by omega)
      (by rw [callChain_congr sameMem, target]; exact chain)
    simp only [target] at pushed lands
    refine ⟨t, runOps_cons_iff.mpr ⟨u, called, ran⟩, ?_, full, fun j below => ?_, fun j k h at_ => ?_, ?_, overflow⟩
    · rw [frame', frame]
    · rw [kept j (by omega), entries, if_neg (by omega)]
    · cases k with
      | zero => rw [kept j (by omega), entries, if_pos (show j.val = s.sp.val from at_)]; rfl
      | succ k => exact pushed j k (Nat.lt_of_succ_lt_succ h) (by omega)
    · rw [callSites_cons, List.getLast?_cons, lands]
      rfl

end Sys2Proof.Machine
end

section
/-! PROOFS. The index register and memory (43_index_memory.md R171 to R178), and `load` (70_reset_and_hazards.md R263): each
store is one write of consecutive bytes, so the law of a read after it gives every byte. -/

namespace Sys2Proof.Machine

/-! ## The index register -/

/-- Settles O26: the sum modulo 65536 is written to `I`, then its flag to VF. -/
theorem addToIndexSetsFlag : Obligations.AddToIndexSetsFlag := by
  intro s x
  refine ⟨_, rfl, rfl, BitVec.toNat_ofNat _ _, fun k => ?_, fun _ => rfl⟩
  simp [flagReg, flagByte, indexFlag]

/-- The glyph addresses fit 16 bits, so nothing wraps. -/
theorem glyphAddress_toNat (b : Byte) : (glyphAddress b).toNat = 0x050 + b.toNat * 5 := by
  have := b.isLt
  simp only [glyphAddress, wrap16, fontBase, glyphBytes, BitVec.toNat_ofNat]
  omega

/-- Settles O27: the glyph address is the one write, to `I`. -/
theorem fontAddressOfADigit : Obligations.FontAddressOfADigit := fun s x =>
  ⟨(s.setIdx (glyphAddress (s.readV x))).setRedraw false, rfl, rfl, glyphAddress_toNat (s.readV x), fun _ => rfl⟩

/-! ## The decimal digits -/

theorem wrap8_toNat_of_lt {n : Nat} (h : n < 256) : (wrap8 n).toNat = n := by
  rw [wrap8, BitVec.toNat_ofNat, Nat.mod_eq_of_lt h]

/-- A read after FX33 of any of the three bytes, and of any other. -/
theorem readMem_writeBytes_bcdDigits (s : State) (a : Nat) (b : Byte) :
    ((s.writeBytes a (bcdDigits b)).readMem a).toNat = b.toNat / 100 ∧
    ((s.writeBytes a (bcdDigits b)).readMem (a + 1)).toNat = b.toNat / 10 % 10 ∧
    ((s.writeBytes a (bcdDigits b)).readMem (a + 2)).toNat = b.toNat % 10 ∧
    ∀ c, c < a ∨ a + 2 < c → (s.writeBytes a (bcdDigits b)).readMem c = s.readMem c := by
  have := b.isLt
  simp only [State.readMem_writeBytes, bcdDigits, List.length_cons, List.length_nil]
  refine ⟨?_, ?_, ?_, fun c outside => dif_neg (by omega)⟩
  · rw [dif_pos (by omega)]
    simpa using wrap8_toNat_of_lt (show b.toNat / 100 < 256 by omega)
  · rw [dif_pos (by omega)]
    simpa using wrap8_toNat_of_lt (show b.toNat / 10 % 10 < 256 by omega)
  · rw [dif_pos (by omega)]
    simpa using wrap8_toNat_of_lt (show b.toNat % 10 < 256 by omega)

/-- Settles O28: the two outcomes of FX33, by its bounds. -/
theorem bcdStoresThreeDigits : Obligations.BcdStoresThreeDigits := by
  refine fun s x => ⟨fun inside => ?_, fun outside => ?_⟩
  · rcases execLdBVx_cases x s with ⟨_, e⟩ | ⟨outside, _⟩
    · exact ⟨_, e, rfl, readMem_writeBytes_bcdDigits s s.idx.toNat (s.readV x)⟩
    · omega
  · rcases execLdBVx_cases x s with ⟨inside, _⟩ | ⟨_, e⟩
    · omega
    · exact e.trans (congrArg _ (s.taken_eq_faultedBy _ _ (wordFXNN_eq_ofNat 0xF#4 x 0x33#8)))

/-! ## The register block -/

/-- A read after FX55 of a byte of the block. -/
theorem readMem_writeBytes_readBlock (s : State) (x k : Nibble) (a : Nat) (h : k.toNat ≤ x.toNat) :
    (s.writeBytes a (s.readBlock x)).readMem (a + k.toNat) = s.readV k := by
  rw [State.readMem_writeBytes, dif_pos (by rw [State.length_readBlock]; omega), State.getElem_readBlock]
  simp

/-- Settles O29: the two outcomes of FX55, by its bounds. -/
theorem storeBlockWritesRegisters : Obligations.StoreBlockWritesRegisters := by
  refine fun s x => ⟨fun inside => ?_, fun outside => ?_⟩
  · rcases execLdMemVx_cases x s with ⟨_, e⟩ | ⟨outside, _⟩
    · refine ⟨_, e, rfl, s.nextIdx_toNat x, fun k h => readMem_writeBytes_readBlock s x k _ h, fun a h => ?_⟩
      simp only [State.readMem_setRedraw, State.readMem_setIdx, State.readMem_writeBytes, State.length_readBlock]
      exact dif_neg (by omega)
    · omega
  · rcases execLdMemVx_cases x s with ⟨inside, _⟩ | ⟨_, e⟩
    · omega
    · exact e.trans (congrArg _ (s.taken_eq_faultedBy _ _ (wordFXNN_eq_ofNat 0xF#4 x 0x55#8)))

/-- Settles O30: the two outcomes of FX65, by its bounds. -/
theorem loadBlockReadsRegisters : Obligations.LoadBlockReadsRegisters := by
  refine fun s x => ⟨fun inside => ?_, fun outside => ?_⟩
  · rcases execLdVxMem_cases x s with ⟨_, e⟩ | ⟨outside, _⟩
    · refine ⟨_, e, ?_, s.nextIdx_toNat x, fun k => ?_, fun a => ?_⟩
      · simp only [State.loadBlock, State.setRegs, State.setIdx, State.setRedraw]
      · rw [State.readV_setRedraw, State.readV_setIdx, State.readV_loadBlock]
      · rw [State.readMem_setRedraw, State.readMem_setIdx, State.readMem_loadBlock]
    · omega
  · rcases execLdVxMem_cases x s with ⟨inside, _⟩ | ⟨_, e⟩
    · omega
    · exact e.trans (congrArg _ (s.taken_eq_faultedBy _ _ (wordFXNN_eq_ofNat 0xF#4 x 0x65#8)))

/-- Settles O31: the load reads the bytes the store wrote. -/
theorem loadAfterStoreRestoresBlock : Obligations.LoadAfterStoreRestoresBlock := by
  intro s x inside
  obtain ⟨t, stored, _, _, block, _⟩ := (storeBlockWritesRegisters s x).1 inside
  refine ⟨t, stored, fun u sameMem sameCfg sameIdx => ?_⟩
  obtain ⟨w, loaded, _, _, regs, _⟩ := (loadBlockReadsRegisters u x).1 (sameIdx ▸ inside)
  refine ⟨w, loaded, fun k h => ?_⟩
  rw [regs, if_pos h, State.readMem_congr sameMem sameCfg, sameIdx, block k h]

/-! ## Program load -/

/-- Settles O56: an image that fits is one write of its bytes from 0x200 up. -/
theorem loadCopiesTheProgram : Obligations.LoadCopiesTheProgram := by
  intro s bytes notFaulted fits
  rw [State.load_of_fits (s.isFaulted_eq_false_iff.mpr notFaulted) fits]
  refine ⟨rfl, rfl, fun j h => ?_, fun a outside => ?_⟩
  · rw [State.readMem_writeBytes, dif_pos ⟨Nat.le_add_right _ _, Nat.add_lt_add_left h _⟩]
    simp [progBase]
  · rw [State.readMem_writeBytes, dif_neg (by simp only [progBase]; omega)]

end Sys2Proof.Machine
end

section
/-! PROOFS. The display (44_display.md R190 to R197): DXYN by the laws of the compositor, which say what `plotSprite` does to
each pixel and when it reports a collision. -/

namespace Sys2Proof.Machine

/-- Settles O32. -/
theorem clearTurnsEveryPixelOff : Obligations.ClearTurnsEveryPixelOff := fun s =>
  ⟨(s.setDisp Display.clear).setRedraw true, rfl, rfl, fun x y _ _ => Display.pix_clear x y, fun _ => rfl⟩

/-- Settles O36: the row and the column of an element are the quotient and the remainder of its number by 64. -/
theorem framebufferIsRowMajor : Obligations.FramebufferIsRowMajor := by
  intro s x y
  have row : (y.val * 64 + x.val) / 64 = y.val := by omega
  have column : (y.val * 64 + x.val) % 64 = x.val := by omega
  simp [State.framebuffer, Display.pix, row, column]

/-- Settles O34: the bounds check counts every row, before any is plotted. -/
theorem drawPastMemoryFaults : Obligations.DrawPastMemoryFaults := by
  intro s x y n rows outside
  rcases execDrw_cases x y n s with ⟨inside, _⟩ | ⟨_, _, e⟩
  · omega
  · exact e.trans (congrArg _ (s.taken_eq_faultedBy _ _ rfl))

/-! ## DXYN -/

section Draw

variable (s : State) (x y n : Nibble)

/-- The bit of the sprite in memory is the bit of the rows that were read. -/
theorem spriteBit_eq_rowsBit (x0 y0 n a b : Nat) :
    s.spriteBit x0 y0 n a b = rowsBit (s.readBytes s.idx.toNat n) x0 y0 a b := by
  unfold State.spriteBit rowsBit
  rw [State.length_readBytes]
  by_cases rows : y0 ≤ b ∧ b < y0 + n
  · have inside : b - y0 < (s.readBytes s.idx.toNat n).length := by rw [State.length_readBytes]; omega
    simp [rows, List.getElem?_eq_getElem inside]
  · simp [rows]

/-- The bit of the sprite on a screen position, for the sprite that DXYN draws. -/
def State.drawnBit (a b : Nat) : Bool :=
  s.spriteBit ((s.readV x).toNat % 64) ((s.readV y).toNat % 32) n.toNat a b

/-- Whether a set bit of the sprite falls on a pixel of the grid that is on (R197). -/
def State.Collides : Prop := ∃ a b, a < 64 ∧ b < 32 ∧ s.disp.pix a b = true ∧ s.drawnBit x y n a b = true

/-- Each pixel of the grid is XORed with the sprite's bit there. -/
theorem drawn_pix {a b : Nat} (ha : a < 64) (hb : b < 32) :
    (s.drawn x y n).disp.pix a b = (s.disp.pix a b ^^ s.drawnBit x y n a b) := by
  rw [State.drawnBit, spriteBit_eq_rowsBit]
  exact (plotRows_eq _ _ _ _).1 a b ha hb

/-- The collision that the compositor reports. -/
theorem plotSprite_collides :
    (plotSprite (s.readBytes s.idx.toNat n.toNat) (startColumn (s.readV x)) (startRow (s.readV y)) s.disp).2 = true ↔
      s.Collides x y n := by
  rw [plotSprite, (plotRows_eq _ _ _ _).2]
  simp only [State.Collides, State.drawnBit, spriteBit_eq_rowsBit, Bool.false_eq_true, false_or, startColumn, startRow]
  tauto

theorem drawn_readV_15_of_collides (h : s.Collides x y n) : (s.drawn x y n).readV 15 = 1 := by
  simp [State.drawn, flagReg, (plotSprite_collides s x y n).mpr h]

theorem drawn_readV_15_of_not_collides (h : ¬s.Collides x y n) : (s.drawn x y n).readV 15 = 0 := by
  have := mt (plotSprite_collides s x y n).mp h
  simp [State.drawn, flagReg, this]

theorem drawn_readV_15_eq_one_iff : (s.drawn x y n).readV 15 = 1 ↔ s.Collides x y n := by
  refine ⟨fun one => ?_, drawn_readV_15_of_collides s x y n⟩
  by_contra noCollision
  rw [drawn_readV_15_of_not_collides s x y n noCollision] at one
  exact absurd one (by decide)

theorem drawn_readV_of_ne {k : Nibble} (h : k ≠ 15) : (s.drawn x y n).readV k = s.readV k := by
  rw [State.drawn, State.readV_setRedraw, State.readV_writeFlag, State.readV_setDisp]
  exact if_neg h

variable {n} in
theorem execDrw_drawn (inside : n.toNat = 0 ∨ s.idx.toNat + n.toNat ≤ 0x1000) :
    exec (.drw x y n) s = .next (s.drawn x y n) := by
  rcases execDrw_cases x y n s with ⟨_, e⟩ | ⟨rows, outside, _⟩
  · exact e
  · omega

variable {s} in
/-- The sprite's bits depend on memory, `I` and the two coordinates. -/
theorem drawnBit_congr {t : State} (mem : ∀ a, t.readMem a = s.readMem a) (idx : t.idx = s.idx)
    (sameX : t.readV x = s.readV x) (sameY : t.readV y = s.readV y) (a b : Nat) :
    t.drawnBit x y n a b = s.drawnBit x y n a b := by
  simp only [State.drawnBit, State.spriteBit, mem, idx, sameX, sameY]

end Draw

/-- Settles O33. -/
theorem drawXorsThePixelsUnderTheSprite : Obligations.DrawXorsThePixelsUnderTheSprite := by
  rintro s x y n _ _ inside rfl rfl
  refine ⟨s.drawn x y n, execDrw_drawn s x y inside, rfl, fun a b => drawn_pix s x y n, fun k => drawn_readV_of_ne s x y n,
    drawn_readV_15_of_collides s x y n, fun noCollision => drawn_readV_15_of_not_collides s x y n ?_, fun _ => rfl⟩
  rintro ⟨a, b, ha, hb, on, bit⟩
  rw [noCollision a b ha hb bit] at on
  cases on

/-- Settles O35: two XORs with the same bit cancel, and the second draw collides where the first turned a pixel on. -/
theorem drawTwiceRestoresTheDisplay : Obligations.DrawTwiceRestoresTheDisplay := by
  intro s x y n p inside
  refine ⟨s.drawn x y n, execDrw_drawn s x y inside, fun sameX sameY => ?_⟩
  have sameBit := drawnBit_congr x y n (s := s) (t := (s.drawn x y n).setPc p) (fun _ => rfl) rfl sameX sameY
  have pix {a b : Nat} (ha : a < 64) (hb : b < 32) :
      ((s.drawn x y n).setPc p).disp.pix a b = (s.disp.pix a b ^^ s.drawnBit x y n a b) := drawn_pix s x y n ha hb
  refine ⟨((s.drawn x y n).setPc p).drawn x y n, execDrw_drawn _ x y inside, Display.ext_pix fun a b ha hb => ?_, ?_, ?_⟩
  · rw [drawn_pix _ x y n ha hb, sameBit, pix ha hb, Bool.xor_assoc, Bool.xor_self, Bool.xor_false]
  · have collides : ((s.drawn x y n).setPc p).Collides x y n ↔
        ∃ a b, a < 64 ∧ b < 32 ∧ s.disp.pix a b = false ∧ s.drawnBit x y n a b = true := by
      refine exists_congr fun a => exists_congr fun b => and_congr_right fun ha => and_congr_right fun hb => ?_
      rw [pix ha hb, sameBit]
      cases s.disp.pix a b <;> cases s.drawnBit x y n a b <;> decide
    rw [drawn_readV_15_eq_one_iff, collides]
    rfl
  · exact (em _).symm.imp (drawn_readV_15_of_not_collides _ x y n) (drawn_readV_15_of_collides _ x y n)

end Sys2Proof.Machine
end

section
/-! PROOFS. No instruction reads ST (10_state.md R28): writing ST first commutes with every operation, and so with every
instruction but FX18, which overwrites what was written. -/

namespace Sys2Proof.Machine

section SoundTimer

variable (b : Byte) (s : State)

theorem State.skipIf_setSt (taken : Bool) : (s.setSt b).skipIf taken = (s.skipIf taken).setSt b := by
  cases taken <;> rfl

theorem State.push_setSt (w : Word) : (s.setSt b).push w = (s.push w).map (·.setSt b) := by
  by_cases room : s.sp.val < 16
  · rw [s.push_ok w room, (s.setSt b).push_ok w room]
    rfl
  · have full : s.sp.val = 16 := by omega
    rw [s.push_full w full, (s.setSt b).push_full w full]
    rfl

theorem State.pop_setSt : (s.setSt b).pop = s.pop.map fun r => (r.1, r.2.setSt b) := by
  by_cases empty : s.sp.val = 0
  · rw [s.pop_empty empty, (s.setSt b).pop_empty empty]
    rfl
  · rw [s.pop_ok empty, (s.setSt b).pop_ok empty]
    rfl

theorem State.fetch_setSt : (s.setSt b).fetch = s.fetch.map fun r => (r.1, r.2.setSt b) := by
  by_cases past : fetchLimit ≤ s.pc.toNat
  · rw [s.fetch_error past, (s.setSt b).fetch_error past]
    rfl
  · have inBounds : s.pc.toNat < fetchLimit := Nat.lt_of_not_le past
    rw [s.fetch_ok inBounds, (s.setSt b).fetch_ok inBounds]
    rfl

theorem State.waitStep_setSt (x : Nibble) (latch : Option (Fin 16)) :
    (s.setSt b).waitStep x latch = (s.waitStep x latch).setSt b := by
  cases latch <;> rfl

/-- Taking a fault does not read ST, so an attempted instruction does not if what it does on success does not. -/
theorem attempt_setSt {α : Type} (i : Instr) (e : Except Fault α) {g g' : α → State} (hg : ∀ a, g' a = (g a).setSt b) :
    attempt i (s.setSt b) (e.map g') = mapNext (·.setSt b) (attempt i s (e.map g)) := by
  cases e with
  | ok a => exact congrArg Host.Outcome.next (hg a)
  | error c => rfl

/-- Those left to `rfl` compute their result from fields the two states share. -/
theorem exec_setSt {i : Instr} (hi : ∀ x, i ≠ .ldStVx x) :
    exec i (s.setSt b) = mapNext (·.setSt b) (exec i s) := by
  cases i
  case ldStVx x => exact absurd rfl (hi x)
  case ret =>
    simp only [exec, execRet, State.pop_setSt]
    cases s.pop <;> rfl
  case call nnn =>
    simp only [exec, execCall, State.push_setSt, State.setSt_pc]
    cases s.push s.pc <;> rfl
  case skp | sknp => exact attempt_setSt b s _ (s.keyAt _) fun _ => congrArg (·.setRedraw false) (s.skipIf_setSt b _)
  case drw | ldBVx | ldMemVx | ldVxMem => exact attempt_setSt b s _ (checkRange _ _) fun _ => rfl
  case seImm | sneImm | seReg | sneReg => exact congrArg (finish false) (s.skipIf_setSt b _)
  all_goals rfl

variable {s}

theorem exec_of_setSt {i : Instr} {t : State} (h : exec i s = .next t) :
    ∃ c, exec i (s.setSt b) = .next (t.setSt c) := by
  by_cases hi : ∀ x, i ≠ .ldStVx x
  · exact ⟨b, by rw [exec_setSt b s hi, h, mapNext]⟩
  · push Not at hi
    obtain ⟨x, rfl⟩ := hi
    cases h
    exact ⟨s.readV x, rfl⟩

theorem step_of_setSt {t : State} (h : step s = .next t) : ∃ c, step (s.setSt b) = .next (t.setSt c) := by
  simp only [step, State.setSt_status, State.fetch_setSt] at h ⊢
  cases hs : s.status with
  | faulted r =>
    simp only [hs] at h
    cases h
    exact ⟨b, rfl⟩
  | awaitingKey x latch =>
    simp only [hs] at h
    cases h
    exact ⟨b, congrArg Host.Outcome.next (s.waitStep_setSt b x latch)⟩
  | running =>
    simp only [hs] at h
    rcases hf : s.fetch with c | ⟨w, u⟩ <;> simp only [hf, Except.map] at h ⊢
    · cases h
      exact ⟨b, rfl⟩
    · cases hd : decode w with
      | error _ =>
        simp only [hd] at h
        cases h
        exact ⟨b, rfl⟩
      | ok i =>
        simp only [hd] at h
        exact exec_of_setSt b h

end SoundTimer

/-- Settles O55. -/
theorem noInstructionReadsTheSoundTimer : Obligations.NoInstructionReadsTheSoundTimer := fun _ _ b => step_of_setSt b

end Sys2Proof.Machine
end
